-- ==== Sys2Proof/Word.lean ====
section
/-! DEFINITION. The word types of the engine (spec/00_scope.md R9; widths: spec/10_state.md R10, spec/30_encoding.md R45). -/

namespace Sys2Proof

/-- A 32-bit word: `sr`, an entry of the queue, a RawSample (R10, R11, R37). -/
abbrev Word := BitVec 32

/-- The level of a one-bit line: 0 logic-low, 1 logic-high (R15, R31, R32). -/
abbrev Level := BitVec 1

/-- One entry of the micro-program ROM: 3 bits, `clk` in bit 2 and `op` in bits 1..0 (R20, R45). -/
abbrev Entry := BitVec 3

/-- The micro-program counter: 7 bits (R10, R14). -/
abbrev Upc := BitVec 7

end Sys2Proof
end

