-- ==== Sys2Proof/Config.lean ====
section
/-! DEFINITION. What is fixed for a machine (ProtocolConfig, spec/00_scope.md R5 to R7, spec/10_state.md R18), and the free values: opaque
constants without a body, of which nothing can be proved but what holds for every value. -/

namespace Sys2Proof

namespace Config

/-- FRAME_BITS (R5): data bits in one ADC frame. -/
def frameBits : Nat := 24
/-- GAIN_PULSES (R5): clock pulses after the last data bit. -/
def gainPulses : Nat := 1
/-- EXT_BITS (R5): extra reads of the most-significant bit. -/
def extBits : Nat := 8
/-- WORD_BITS (R5): the width of `sr`, EXT_BITS + FRAME_BITS. -/
def wordBits : Nat := extBits + frameBits
/-- TICK_HZ (R5): the reference tick rate; informative, no rule depends on it (R124). -/
def tickHz : Nat := 2000000
/-- The most entries a program has (R52), so that `upc` fits 7 bits. -/
def maxProgramLength : Nat := 128

/-- FREE CONSTANT: FIFO_DEPTH less one (log entry 5). -/
opaque fifoDepthPred : Nat
/-- FIFO_DEPTH (R6, R37, 92_eei_decisions.md D10): open in the spec but for being at least 1. -/
def fifoDepth : Nat := fifoDepthPred + 1
/-- FREE CONSTANT: CLOCK_PIN (R6), an identity no rule reads but to tell two engines' pins apart (log entry 6). -/
opaque clockPin : Nat
/-- FREE CONSTANT: DATA_PIN (R6; log entry 6); the free values below take it as the name of an engine's ADC and host (log entry 17). -/
opaque dataPin : Nat
/-- FREE CONSTANT: ENGINE_ID (R6; log entry 6). -/
opaque engineId : Nat

/-- FREE VALUE: Env of R33, the ADC's answer on the data line, a function of the clock levels up to and including the current tick, newest
first. It answers in the ticks for which State lists no input (log entry 2). The first argument is the engine's DATA_PIN: DESIGN CHOICE, each engine
has an ADC of its own, and nothing relates the ADCs of two engines (log entry 17). -/
opaque env : Nat → List Level → Level
/-- FREE VALUE: is `rst` asserted in tick `t` at the engine of a DATA_PIN, where State lists no input (log entries 1, 17). -/
opaque rstAt : Nat → Nat → Bool
/-- FREE VALUE: does the host of the engine of a DATA_PIN request START in tick `t`, where State lists no input (log entries 1, 17). -/
opaque startAt : Nat → Nat → Bool
/-- FREE VALUE: does the host of the engine of a DATA_PIN request POP in tick `t`, where State lists no input (log entries 1, 17). -/
opaque popAt : Nat → Nat → Bool

end Config

/-- ProtocolConfig: "immutable configuration fixed at driver construction" (R7, R18). FRAME_BITS, GAIN_PULSES and EXT_BITS are constants fixed
into `uprog`. -/
structure ProtocolConfig where
  /-- CLOCK_PIN, opaque (R6). -/
  clockPin : Nat
  /-- DATA_PIN, opaque (R6). -/
  dataPin : Nat
  /-- ENGINE_ID, opaque (R6). -/
  engineId : Nat
  /-- TICK_HZ, informative (R5). -/
  tickHz : Nat
  /-- UPROG, the micro-program, address 0 first (R20, R50, R52). -/
  uprog : List Entry
  /-- FIFO_DEPTH (R37). -/
  fifoDepth : Nat
  deriving DecidableEq, Repr

end Sys2Proof
end

