-- ==== Sys2Proof/Syntax.lean ====
section
/-! DEFINITION. The operations of the block: the four micro-operations, the two host requests, and the listing forms that stand for
sequences of micro-operations (spec/40_microops.md R61 to R64, spec/42_host_interface.md R85, R86, R88, spec/30_encoding.md R53). -/

namespace Sys2Proof

/-- Every operation there is (R88): one constructor per row of spec/opcode_table.json. The operand of a micro-operation is its side-set
clock level, the `clk` field of format `U` (R45). -/
inductive Instr where
  /-- `WAIT c` (R61): stall while the data line is high. -/
  | wait (c : Level)
  /-- `HOLD c` (R62): drive the clock for one tick, nothing else. -/
  | hold (c : Level)
  /-- `SAMPLE c` (R63): shift one bit of the data line into `sr`. -/
  | sample (c : Level)
  /-- `PUSH c` (R64): append `sr` to the queue, or stall while it is full. -/
  | push (c : Level)
  /-- `START` (R85): a host request, never in UPROG. -/
  | start
  /-- `POP` (R86): a host request, never in UPROG. -/
  | pop
  deriving DecidableEq, Repr

/-- The assembler text of an operation (R53): its name, and for a micro-operation the clock level after it. -/
def Instr.text : Instr → String
  | .wait c => if c = 1#1 then "WAIT 1" else "WAIT 0"
  | .hold c => if c = 1#1 then "HOLD 1" else "HOLD 0"
  | .sample c => if c = 1#1 then "SAMPLE 1" else "SAMPLE 0"
  | .push c => if c = 1#1 then "PUSH 1" else "PUSH 0"
  | .start => "START"
  | .pop => "POP"

/-- One line of a program listing (R53): a micro-operation, or one of the three pseudo-instructions. -/
inductive Line where
  | op (i : Instr)
  | pulse
  | bit
  | ext (n : Nat)
  deriving DecidableEq, Repr

/-- The micro-operations a listing line stands for (R53); a pseudo-instruction has no encoding of its own. -/
def Line.expand : Line → List Instr
  | .op i => [i]
  | .pulse => [.hold 1#1, .hold 0#1]
  | .bit => [.hold 1#1, .sample 1#1, .hold 0#1]
  | .ext n => List.replicate n (.sample 0#1)

/-- The micro-operations of a whole listing, address 0 first (R53). -/
def expandListing (lines : List Line) : List Instr :=
  lines.flatMap Line.expand

end Sys2Proof
end

