-- ==== Sys2Proof/WellFormed.lean ====
section
/-! DEFINITION. Which terms are well formed: operations that may stand in a micro-program, programs, configurations, and the
configurations of several engines side by side (spec/30_encoding.md R52, spec/42_host_interface.md R85, R86, spec/60_exceptions.md R105). -/

namespace Sys2Proof

/-- May the operation stand in UPROG? START and POP are host requests, "not in UPROG" (R85, R86). -/
def Instr.isMicroOp : Instr → Bool
  | .wait _ => true
  | .hold _ => true
  | .sample _ => true
  | .push _ => true
  | .start => false
  | .pop => false

/-- A well-formed program (R52): 1 to 128 micro-operations. -/
def programWf (p : List Instr) : Bool :=
  decide (1 ≤ p.length) && decide (p.length ≤ Config.maxProgramLength) && p.all Instr.isMicroOp

/-- A well-formed configuration: 1 <= UPROG_LEN <= 128 (R52) and FIFO_DEPTH >= 1 (R6). -/
def ProtocolConfig.wf (c : ProtocolConfig) : Bool :=
  decide (1 ≤ c.uprog.length) && decide (c.uprog.length ≤ Config.maxProgramLength) && decide (1 ≤ c.fifoDepth)

/-- Do two engines have a pin in common? (R105, R116; 93_implementation_defined.md U1, U3) -/
def ProtocolConfig.sharesPin (a b : ProtocolConfig) : Bool :=
  a.clockPin == b.clockPin || a.clockPin == b.dataPin || a.dataPin == b.clockPin || a.dataPin == b.dataPin

/-- Several engines side by side are well formed when no two of them have a pin in common: "one engine owns one pin pair exclusively"
(R102, R105, R116). -/
def pinsExclusive : List ProtocolConfig → Bool
  | [] => true
  | c :: cs => cs.all (fun d => !c.sharesPin d) && pinsExclusive cs

end Sys2Proof
end

