-- ==== Sys2Proof/Decode.lean ====
section
/-! DEFINITION. The decoder and the encoder of format `U` (spec/30_encoding.md R45 to R49), and the reference micro-program (R50, R53). -/

namespace Sys2Proof

/-- The `clk` field of an entry: bit 2 (R45). -/
def Entry.clk (w : Entry) : Level :=
  w.extractLsb' 2 1

/-- The `op` field of an entry: bits 1..0 (R45). -/
def Entry.op (w : Entry) : BitVec 2 :=
  w.extractLsb' 0 2

/-- The micro-operation an entry stands for (R45, R48): `op` 0 WAIT, 1 HOLD, 2 SAMPLE, 3 PUSH. All eight patterns are legal. -/
def decode (w : Entry) : Instr :=
  if Entry.op w = 0#2 then .wait (Entry.clk w)
  else if Entry.op w = 1#2 then .hold (Entry.clk w)
  else if Entry.op w = 2#2 then .sample (Entry.clk w)
  else .push (Entry.clk w)

/-- Why a number is no entry. -/
inductive DecodeRefusal where
  /-- The number needs more than 3 bits: "a ROM entry wider than 3 bits does not exist" (R49). -/
  | entryTooWide
  deriving DecidableEq, Repr

/-- The decoder on any number: below 8 the micro-operation of that entry (R45: `4*clk + op`), else a refusal by name (R49). -/
def decodeWord (n : Nat) : Except DecodeRefusal Instr :=
  if n < 8 then .ok (decode (BitVec.ofNat 3 n)) else .error .entryTooWide

/-- The entries an operation is written as (R45): one for a micro-operation, `clk ++ op`; none for a host request, which has no encoding
(R85, R86). -/
def encode : Instr → List Entry
  | .wait c => [c ++ 0#2]
  | .hold c => [c ++ 1#2]
  | .sample c => [c ++ 2#2]
  | .push c => [c ++ 3#2]
  | .start => []
  | .pop => []

/-- The ROM contents of a program, address 0 first (R46: one entry per micro-operation). -/
def assemble (p : List Instr) : List Entry :=
  p.flatMap encode

/-- The program a ROM holds (R46). -/
def disassemble (rom : List Entry) : List Instr :=
  rom.map decode

/-- The decoder's answer for a word of spec/opcode_table.json: a micro-operation is a 3-bit entry, so a row of fewer bits (START and POP
have none: host requests, never in UPROG) is no entry, and a number of more than 3 bits is refused (log entry 9). -/
def decodeTableWord (nbits w : Nat) : Option Instr :=
  if nbits < 3 then none
  else match decodeWord w with
    | .ok i => some i
    | .error _ => none

/-- The reference program as R53 lists it; the counts are FRAME_BITS and EXT_BITS of R5. -/
def referenceListing : List Line :=
  [.op (.wait 0#1), .pulse, .ext (Config.extBits + 1)] ++ List.replicate (Config.frameBits - 1) .bit
    ++ [.op (.hold 1#1), .op (.push 0#1)]

/-- The reference UPROG (R50), 83 entries, address 0 first: 0, the ready edge, nine clockless reads, 23 clocked bits, the gain pulse, PUSH. -/
def referenceUprog : List Entry :=
  [0, 5, 1, 2, 2, 2, 2, 2, 2, 2, 2, 2]
    ++ [5, 6, 1, 5, 6, 1, 5, 6, 1, 5, 6, 1, 5, 6, 1, 5, 6, 1, 5, 6, 1, 5, 6, 1]
    ++ [5, 6, 1, 5, 6, 1, 5, 6, 1, 5, 6, 1, 5, 6, 1, 5, 6, 1, 5, 6, 1, 5, 6, 1]
    ++ [5, 6, 1, 5, 6, 1, 5, 6, 1, 5, 6, 1, 5, 6, 1, 5, 6, 1, 5, 6, 1]
    ++ [5, 3]

end Sys2Proof
end

