-- ==== Sys2Proof/Machine/State.lean ====
section
/-! DEFINITION. The state of the engine: the spec's five pieces (spec/10_state.md R10), its immutable configuration, and the model's own plain
data for what the world outside does; the reasons a step can stop; the state after reset. -/

namespace Sys2Proof.Machine

/-- What the world outside does to the engine in one tick: the input ports of R89 as sampled in that tick. -/
structure TickInput where
  /-- Port `rst`: reset is asserted (R110). -/
  rst : Bool
  /-- Port `start`: the host requests START (R85). -/
  start : Bool
  /-- Port `rx_pop`: the host requests POP (R86). -/
  pop : Bool
  /-- Port `data_in`: the level the ADC drives on the data line (R32). -/
  data : Level
  deriving DecidableEq, Repr

/-- The state. -/
structure State where
  /-- Enable (R10, R17): false idle, true running. -/
  en : Bool
  /-- Micro-program counter (R10, R14). -/
  upc : Upc
  /-- Clock output register, the level of the clock line (R10, R15). -/
  clk : Level
  /-- Shift register, the only data register (R10, R11). -/
  sr : Word
  /-- Output queue, oldest word first (R10, R37). -/
  fifo : List Word
  /-- ProtocolConfig, immutable (R7, R18); no step changes it (log entry 4). -/
  cfg : ProtocolConfig
  /-- The model's own: the inputs of the ticks to come, next tick first (log entry 1). -/
  inputs : List TickInput
  /-- The model's own: the clock levels of the ticks so far, newest first, all that Env of R33 may look at (log entry 2). -/
  clkHistory : List Level
  /-- The model's own: the word the host received in the last tick, if its POP succeeded (R86, R89; log entry 3). -/
  delivered : Option Word
  deriving DecidableEq, Repr

/-- The faults: none. "A model's engine step therefore has two outcomes only ... it has no fault outcome" (R95). -/
inductive Fault : Type
  deriving DecidableEq, Repr

/-- The refusals. -/
inductive Refusal where
  /-- Raised by an arm of `exec` whose instruction has no meaning yet. No arm does. Safe. -/
  | notModelled (mnemonic : String)
  /-- Raised by the fetch of a tick with `en = 1` whose `upc` is outside UPROG: "a model's fetch at such a `upc` refuses" (R49, R95; U5).
  No run from reset reaches it. Safe. -/
  | fetchOutsideUprog
  /-- Raised by `systemStep` on several engines of which two have a pin in common: "undefined and must be prevented by construction", a model
  refuses such a configuration (R105, R116; U1). Never by `step` or `exec`. Safe. -/
  | sharedPins
  deriving DecidableEq, Repr

/-- The reference configuration: R50's program, R5's tick rate, and free constants where the spec leaves the value open (log entries 5, 6). -/
def referenceConfig : ProtocolConfig where
  clockPin := Config.clockPin
  dataPin := Config.dataPin
  engineId := Config.engineId
  tickHz := Config.tickHz
  uprog := referenceUprog
  fifoDepth := Config.fifoDepth

/-- The machine right after reset (R22): idle, `upc = 0`, clock low, `sr = 0`, queue empty; the reference configuration; no input listed, no
tick past, nothing delivered (log entries 1 to 4). -/
def State.reset : State where
  en := false
  upc := 0#7
  clk := 0#1
  sr := 0#32
  fifo := []
  cfg := referenceConfig
  inputs := []
  clkHistory := []
  delivered := none

/-- The result type of meanings and steps. -/
abbrev Result := Host.Outcome State Fault Refusal

end Sys2Proof.Machine
end

