-- ==== Sys2Proof/Machine/Flags.lean ====
section
/-! DEFINITION. The derived statuses (spec/10_state.md R16, spec/20_memory.md R37) and the output ports (spec/42_host_interface.md R89). The
engine has no condition codes and stores no flag (R16). -/

namespace Sys2Proof.Machine

/-- `FifoEmpty()` (R37). -/
def State.fifoEmpty (s : State) : Bool :=
  s.fifo.length == 0

/-- `FifoFull()`, the status `rx_full` (R16, R37). -/
def State.fifoFull (s : State) : Bool :=
  s.fifo.length == s.cfg.fifoDepth

/-- `rx_valid` (R16, R89). -/
def State.rxValid (s : State) : Bool :=
  !s.fifoEmpty

/-- `rx_data` (R89): the oldest word when `rx_valid = 1`; no value when `rx_valid = 0` (U4). -/
def State.rxData (s : State) : Option Word :=
  s.fifo.head?

/-- `clk_out` (R89): equals `clk`. -/
def State.clkOutPort (s : State) : Level :=
  s.clk

end Sys2Proof.Machine
end

