-- ==== Sys2Proof/Machine/Operands.lean ====
section
/-! DEFINITION. What an operation reads besides its clock level: the inputs of the current tick (spec/20_memory.md R30, R32, R33,
spec/42_host_interface.md R89), the bit-field forms of spec/00_scope.md R9, and the shift-insert of spec/40_microops.md R63. -/

namespace Sys2Proof.Machine

/-- The number of the current tick: how many ticks are past. -/
def State.tick (s : State) : Nat :=
  s.clkHistory.length

/-- Is `rst` asserted in this tick? (R110) -/
def State.rstNow (s : State) : Bool :=
  match s.inputs with
  | i :: _ => i.rst
  | [] => Config.rstAt s.cfg.dataPin s.tick

/-- Does the host request START in this tick? (R85) -/
def State.startNow (s : State) : Bool :=
  match s.inputs with
  | i :: _ => i.start
  | [] => Config.startAt s.cfg.dataPin s.tick

/-- Does the host request POP in this tick? (R86) -/
def State.popNow (s : State) : Bool :=
  match s.inputs with
  | i :: _ => i.pop
  | [] => Config.popAt s.cfg.dataPin s.tick

/-- `DataIn()` (R9, R32, R33): the level of the data line in the current tick, read after the clock is driven. A listed tick has its bit; else the
ADC answers as a free function of the clock levels up to and including this tick's. Reading has no side effect (R30). DESIGN CHOICE: the free function is
that of the engine's own data pin, so that the ADCs of several engines (R105) have nothing to do with each other (log entry 17). -/
def State.dataIn (s : State) : Level :=
  match s.inputs with
  | i :: _ => i.data
  | [] => Config.env s.cfg.dataPin (s.clk :: s.clkHistory)

/-- `sr[30:0] ++ d` (R63): the old bit 31 is discarded, `d` becomes bit 0. -/
def shiftInsert (sr : Word) (d : Level) : Word :=
  sr.extractLsb' 0 31 ++ d

/-- `sext_24(v)` (R9): bits 23..0 are `v`, bits 31..24 all equal bit 23 of `v`. -/
def sext24 (v : BitVec 24) : Word :=
  BitVec.replicate 8 (v.extractLsb' 23 1) ++ v

/-- `signed32(w)` (R9, R74): `w` if `w[31] = 0`, else `w - 2^32`. -/
def signed32 (w : Word) : Int :=
  if w.extractLsb' 31 1 = 0#1 then (w.toNat : Int) else (w.toNat : Int) - 2 ^ 32

/-- `unsigned32(w)` (R9). -/
def unsigned32 (w : Word) : Nat :=
  w.toNat

end Sys2Proof.Machine
end

