-- ==== Sys2Proof/Machine/Ops.lean ====
section
/-! DEFINITION. The named operations over the state that the meanings and the tick share. The block has no exception entry and no return
(spec/60_exceptions.md R95, R100), so there is none here; what stops a frame is reset alone (spec/70_reset_and_hazards.md R110, R111). -/

namespace Sys2Proof.Machine

/-- `next(upc)` (R9, R14, R65): 0 from the last address, else `upc + 1`. -/
def nextUpc (s : State) : Upc :=
  if s.upc.toNat + 1 = s.cfg.uprog.length then 0#7 else s.upc + 1#7

/-- `ClkOut(b)` (R9, R15, R31): drive the clock line to `b`. -/
def State.clkOut (s : State) (b : Level) : State :=
  { s with clk := b }

/-- `upc <- next(upc)` (R65). -/
def State.advance (s : State) : State :=
  { s with upc := nextUpc s }

/-- Shift one bit into `sr` at the least-significant end (R63). -/
def State.shiftIn (s : State) (d : Level) : State :=
  { s with sr := shiftInsert s.sr d }

/-- `FifoPush(w)` (R38): append after the youngest entry. Called only when `FifoFull()` is false. -/
def State.fifoPush (s : State) (w : Word) : State :=
  { s with fifo := s.fifo ++ [w] }

/-- The effect of a POP request (R39, R86, R87): the oldest word, if there is one, is removed and the host receives it; on an empty queue the
host receives nothing and the queue stays empty. -/
def State.hostPop (s : State) : State :=
  { s with delivered := s.fifo.head?, fifo := s.fifo.tail }

/-- The effect of a START request (R85): `en <- 1`. -/
def State.hostStart (s : State) : State :=
  { s with en := true }

/-- The effect of `rst` (R22, R110): every piece of state to its reset value, the host receives nothing. The configuration is not state (R112) and
reset does not reach the ADC (R113). -/
def State.applyReset (s : State) : State :=
  { s with en := false, upc := 0#7, clk := 0#1, sr := 0#32, fifo := [], delivered := none }

/-- A tick begins: the host has received nothing in it yet (log entry 3). -/
def State.beginTick (s : State) : State :=
  { s with delivered := none }

/-- A tick ends: its clock level is part of the clock's history, its inputs are spent (R33; log entries 1, 2). -/
def State.endTick (s : State) : State :=
  { s with clkHistory := s.clk :: s.clkHistory, inputs := s.inputs.tail }

end Sys2Proof.Machine
end

