-- ==== Sys2Proof/Machine/HostRequests.lean ====
section
/-! DEFINITION. The two host requests (spec/42_host_interface.md R85 to R87). They are steps of the host within a tick, before the engine's
micro-operation (spec/20_memory.md R40). -/

namespace Sys2Proof.Machine

/-- `START` (R85): enable the engine. "Effective from the next tick" is the tick's: it tests the `en` of its start (R60). -/
def execStart (s : State) : Result :=
  .next s.hostStart

/-- `POP` (R86, R87): take the oldest completed sample, or nothing. -/
def execPop (s : State) : Result :=
  .next s.hostPop

end Sys2Proof.Machine
end

