-- ==== Sys2Proof/Machine/Sequencing.lean ====
section
/-! DEFINITION. The micro-operations that only sequence: WAIT and HOLD (spec/40_microops.md R61, R62). -/

namespace Sys2Proof.Machine

/-- `WAIT c` (R61): drive the clock to `c`; stall while the data line reads 1. There is no timeout (R118). -/
def execWait (c : Level) (s : State) : Result :=
  let d := (s.clkOut c).dataIn
  if d = 1#1 then .next (s.clkOut c) else .next (s.clkOut c).advance

/-- `HOLD c` (R62): drive the clock to `c` for one tick. -/
def execHold (c : Level) (s : State) : Result :=
  .next (s.clkOut c).advance

end Sys2Proof.Machine
end

