-- ==== Sys2Proof/Machine/Transfer.lean ====
section
/-! DEFINITION. The micro-operations that move data: SAMPLE and PUSH (spec/40_microops.md R63, R64). -/

namespace Sys2Proof.Machine

/-- `SAMPLE c` (R63): drive the clock to `c`, read the data line, shift the bit into `sr`. -/
def execSample (c : Level) (s : State) : Result :=
  let d := (s.clkOut c).dataIn
  .next ((s.clkOut c).shiftIn d).advance

/-- `PUSH c` (R64): drive the clock to `c`; append `sr` to the queue, or stall while it is full. `sr` is not cleared (R13). -/
def execPush (c : Level) (s : State) : Result :=
  if s.fifoFull then .next (s.clkOut c) else .next ((s.clkOut c).fifoPush s.sr).advance

end Sys2Proof.Machine
end

