-- ==== Sys2Proof/Machine/Dispatch.lean ====
section
/-! DEFINITION. One arm per operation. -/

namespace Sys2Proof.Machine

def exec (i : Instr) (s : State) : Host.Outcome State Fault Refusal :=
  match i with
  | .wait c => Sys2Proof.Machine.execWait c s
  | .hold c => Sys2Proof.Machine.execHold c s
  | .sample c => Sys2Proof.Machine.execSample c s
  | .push c => Sys2Proof.Machine.execPush c s
  | .start => Sys2Proof.Machine.execStart s
  | .pop => Sys2Proof.Machine.execPop s

end Sys2Proof.Machine
end

