-- ==== Sys2Proof/Machine/Tick.lean ====
section
/-! DEFINITION. The parts of a tick around the micro-operation (spec/40_microops.md R60): the reset tick, the host phase, the idle tick, the
fetch; and where the fetch finds its entry. -/

namespace Sys2Proof.Machine

/-- Apply `f` to the next state of an outcome. -/
def mapNext (f : State → State) : Result → Result
  | .next s => .next (f s)
  | .fault r => .fault r
  | .refused r => .refused r

/-- R60 step 0: a tick with `rst` asserted. Nothing else happens in it (R99, R110). -/
def resetTick (s : State) : State :=
  s.applyReset.endTick

/-- The POP part of the host phase (R60 step 1, R86). -/
def popPhase (s : State) : State :=
  if s.popNow then s.beginTick.hostPop else s.beginTick

/-- R60 step 1: the host's POP and START, before the micro-operation (R40, R99). -/
def hostPhase (s : State) : State :=
  if s.startNow then (popPhase s).hostStart else popPhase s

/-- R60 step 2: after the host phase of a tick that began with `en = 0` the clock line is low and nothing else happens (R66). -/
def idleTick (s : State) : State :=
  ((hostPhase s).clkOut 0#1).endTick

/-- R60 step 3: the entry at `upc`, decoded; outside UPROG a refusal (R49). -/
def fetch (s : State) : Except Refusal Instr :=
  match s.cfg.uprog[s.upc.toNat]? with
  | some w => .ok (decode w)
  | none => .error .fetchOutsideUprog

/-- The ROM with entry `w` at address `a`, padded below with WAIT 0 where it was shorter; without an entry, cut off before `a`. -/
def romWith (rom : List Entry) (a : Nat) (w : Option Entry) : List Entry :=
  match w with
  | some e => rom.take a ++ List.replicate (a - rom.length) 0#3 ++ [e] ++ rom.drop (a + 1)
  | none => rom.take a

/-- The inputs with a current tick in which reset is not asserted; where none is listed, one with no request and the data line low. -/
def withoutReset : List TickInput → List TickInput
  | [] => [{ rst := false, start := false, pop := false, data := 0#1 }]
  | i :: rest => { i with rst := false } :: rest

end Sys2Proof.Machine
end

