-- ==== Sys2Proof/Machine/Step.lean ====
section
/-! DEFINITION. One step of the machine: one tick (spec/40_microops.md R60). -/

namespace Sys2Proof.Machine

/-- One tick, in the order of R60: reset alone; else the host phase; then, if `en` was 1 at the start of the tick, fetch and execute one
micro-operation, else idle. -/
def step (s : State) : Host.Outcome State Fault Refusal :=
  if s.rstNow then .next (resetTick s)
  else if s.en then
    match fetch (hostPhase s) with
    | .ok i => mapNext State.endTick (exec i (hostPhase s))
    | .error r => .refused r
  else .next (idleTick s)

/-- `s` with the table word `w` as the ROM entry at `upc`, enabled, and no reset in the current tick, so that the next step fetches and runs exactly
it; where the word is no entry, the ROM has none at `upc` and the next step refuses (log entries 7, 9). -/
def State.withFetchWord (s : State) (nbits w : Nat) : State :=
  { s with
    en := true
    inputs := withoutReset s.inputs
    cfg := { s.cfg with
      uprog := romWith s.cfg.uprog s.upc.toNat
        (if nbits < 3 then none else if w < 8 then some (BitVec.ofNat 3 w) else none) } }

end Sys2Proof.Machine
end

