-- ==== Sys2Proof/Machine/System.lean ====
section
/-! DEFINITION. Several engines side by side (spec/60_exceptions.md R105, spec/70_reset_and_hazards.md R116): each with its own pins, state and
queue, sharing nothing; two on the same pins are refused. -/

namespace Sys2Proof.Machine

/-- One tick of each engine in turn; they share nothing, so the order is of no account (R105). DESIGN CHOICE: all take their tick together, and a refusal
of one is a refusal of the system (log entry 13). -/
def stepEach : List State → Host.Outcome (List State) Fault Refusal
  | [] => .next []
  | s :: rest =>
    match step s, stepEach rest with
    | .next t, .next ts => .next (t :: ts)
    | .next _, .refused r => .refused r
    | .next _, .fault r => .fault r
    | .refused r, _ => .refused r
    | .fault r, _ => .fault r

/-- One tick of a system of engines; two of them on a common pin have no meaning (R105; U1). -/
def systemStep (ss : List State) : Host.Outcome (List State) Fault Refusal :=
  if pinsExclusive (ss.map State.cfg) then stepEach ss else .refused .sharedPins

end Sys2Proof.Machine
end

