-- ==== Sys2Proof/Safety.lean ====
section
/-! DEFINITION. The terms claims are stated in: the invariants of the machine, what a run of ticks pushes and delivers, the inputs of one frame
cycle of the reference program, and the assumption about the ADC (spec/41_frame_cycle.md R70 to R78). Nothing here is read by a step. -/

namespace Sys2Proof.Machine

/-- The invariant of every program: the configuration is well formed (R52, R6); `upc` is inside UPROG (R14); the queue holds at most FIFO_DEPTH words
(R37); an engine that is not enabled is as reset left it (R17, R22); `clk` is the level of the last tick (R15, R33). -/
abbrev State.Inv (s : State) : Prop :=
  s.cfg.wf = true ∧ s.upc.toNat < s.cfg.uprog.length ∧ s.fifo.length ≤ s.cfg.fifoDepth
    ∧ (s.en = false → s.upc = 0#7 ∧ s.clk = 0#1 ∧ s.sr = 0#32 ∧ s.fifo = []) ∧ s.clk = s.clkHistory.headD 0#1

/-- The spec's own state and the configuration, without the model's own fields: for comparing two machines. -/
def State.architectural (s : State) : State :=
  { s with inputs := [], clkHistory := [] }

/-- `k` ticks, up to a refusal: the host's `Core.run` of this machine (Laws/Step.lean, `ticks_eq_run`). -/
def ticks : Nat → State → Result
  | 0, s => .next s
  | k + 1, s =>
    match step s with
    | .next t => ticks k t
    | .fault r => .fault r
    | .refused r => .refused r

/-- The states in which the next `k` ticks begin, first tick first, up to a refusal. -/
def visited : Nat → State → List State
  | 0, _ => []
  | k + 1, s =>
    s :: match step s with
      | .next t => visited k t
      | .fault _ => []
      | .refused _ => []

/-- The word a successful PUSH appends in this tick, if there is one (R64). -/
def pushedNow (s : State) : Option Word :=
  if s.rstNow || !s.en then none
  else match fetch (hostPhase s) with
    | .ok (.push _) => if (hostPhase s).fifoFull then none else some s.sr
    | .ok _ => none
    | .error _ => none

/-- The word a successful POP takes in this tick, if there is one (R86). -/
def poppedNow (s : State) : Option Word :=
  if s.rstNow || !s.popNow then none else s.fifo.head?

/-- The length of the run of high levels at the head of a clock history (newest first). -/
def highRun (levels : List Level) : Nat :=
  (levels.takeWhile (· == 1#1)).length

/-- No three consecutive ticks with the clock high. -/
def noThreeHighs : List Level → Bool
  | a :: b :: c :: rest => !(a == 1#1 && b == 1#1 && c == 1#1) && noThreeHighs (b :: c :: rest)
  | _ => true

/-- The number of clock pulses' rising edges in a sequence of levels, oldest first, after a tick of level `before` (R9). -/
def risingEdges : Level → List Level → Nat
  | _, [] => 0
  | before, c :: rest => (if before = 0#1 ∧ c = 1#1 then 1 else 0) + risingEdges c rest

/-- The clock levels of addresses 0 to `a - 1` of the reference program, newest first. -/
def referenceLevelsBelow (a : Nat) : List Level :=
  ((referenceUprog.take a).map Entry.clk).reverse

/-- The invariant of the reference program: the clock's last high run is the one the program has before `upc`, or has ended in a stalled PUSH at
address 82; and no high run of the clock's history is longer than 2 ticks (R71, R123). -/
abbrev State.ReferenceInv (s : State) : Prop :=
  s.Inv ∧ s.cfg.uprog = referenceUprog
    ∧ (highRun s.clkHistory = highRun (referenceLevelsBelow s.upc.toNat) ∨ (s.upc = 82#7 ∧ highRun s.clkHistory = 0))
    ∧ noThreeHighs s.clkHistory = true

/-- The inputs of a frame cycle up to the gain pulse (R70): the WAIT ticks with the data line high, the tick `T0` that reads it low, and the 81
ticks `T0+1 .. T0+81`. -/
structure CycleInputs where
  wait : List TickInput
  ready : TickInput
  frame : List TickInput
  deriving DecidableEq, Repr

/-- No reset in the cycle, the line high in the waiting ticks and low in `T0`, 81 ticks after it; the host's requests and the line's other levels are
free. -/
abbrev CycleInputs.Fits (c : CycleInputs) : Prop :=
  (∀ i ∈ c.wait, i.rst = false ∧ i.data = 1#1) ∧ c.ready.rst = false ∧ c.ready.data = 0#1
    ∧ c.frame.length = 81 ∧ ∀ i ∈ c.frame, i.rst = false

/-- The ticks' inputs in order. -/
def CycleInputs.all (c : CycleInputs) : List TickInput :=
  c.wait ++ c.ready :: c.frame

/-- The data line in the ticks `T0 .. T0+81`. -/
def CycleInputs.line (c : CycleInputs) : List Level :=
  (c.ready :: c.frame).map TickInput.data

/-- The tick, counted from `T0`, of read number `i` (R73): `3+i` for `i` to 8, then `13+3k` for `i = 9+k`. -/
def readTick (i : Nat) : Nat :=
  if i ≤ 8 then 3 + i else 13 + 3 * (i - 9)

/-- A running engine with the reference program stands at address 0 and its next ticks have the cycle's inputs, then `rest`. -/
abbrev CycleInputs.StartsAt (c : CycleInputs) (s : State) (rest : List TickInput) : Prop :=
  s.Inv ∧ s.cfg.uprog = referenceUprog ∧ s.en = true ∧ s.upc = 0#7 ∧ c.Fits ∧ s.inputs = c.all ++ rest

/-- What there is to see of the ADC in one tick: the clock level it is driven with, the level it drives, and whether a conversion is ready, which is state
of the ADC itself (R8, R21) and of no engine. -/
structure AdcTick where
  clk : Level
  data : Level
  ready : Bool
  deriving DecidableEq, Repr

/-- The line between two frames (R76 items 1 and 4): high while no conversion is ready, low when one is. -/
def AdcTick.idles (x : AdcTick) : Bool :=
  x.data == if x.ready then 0#1 else 1#1

/-- Does a tick that is no rising edge agree with `AdcContract(v)`, `edges` rising edges of the frame past, the clock at `before` in the tick before?
Before the first edge the line idles (item 1). After edge `j`, 1 to 24, it carries bit `24-j` of `v` (items 2, 3). After edge 25 the pulse may still
last, and then the line is free; from the first low tick on the line idles, and in that tick no conversion is ready: the ADC has just started the next one
(item 4; log entry 14). -/
def AdcTick.agrees (v : BitVec 24) (before : Level) (edges : Nat) (x : AdcTick) : Bool :=
  if edges = 0 then x.idles
  else if edges ≤ 24 then x.data == v.extractLsb' (24 - edges) 1
  else x.clk == 1#1 || (x.idles && !(before == 1#1 && x.ready))

/-- `AdcContract(v)` (R76), over the ticks from the wait before a frame to the next frame's first rising edge. In the tick of a rising edge the line is free
(item 3: the bit is there no later than one tick after); a 26th rising edge begins the frame of another conversion, of which the contract for `v` says
nothing (log entry 14). -/
def adcContract (v : BitVec 24) : Level → Nat → List AdcTick → Bool
  | _, _, [] => true
  | before, edges, x :: rest =>
    if before = 0#1 ∧ x.clk = 1#1 then
      if edges < 25 then adcContract v x.clk (edges + 1) rest else true
    else x.agrees v before edges && adcContract v x.clk edges rest

/-- The ADC's ticks: the clock levels the engine drove in `n` ticks, read off its history, with the data line's levels of their inputs and the ADC's
readiness in each. -/
def adcTicks (n : Nat) (history : List Level) (inputs : List TickInput) (ready : List Bool) : List AdcTick :=
  ((history.take n).reverse.zip (inputs.zip ready)).map fun x => { clk := x.1, data := x.2.1.data, ready := x.2.2 }

end Sys2Proof.Machine
end

