-- ==== Sys2Proof/Certificates/Slice0/Obligations.lean ====
section
/-! DEFINITION. The statements for the provers, each about the machine and none about a test program. The spec's rules are its own decisions
where 92_eei_decisions.md says so; a docstring names the rule a statement formalises, or the sections it rests on. -/

open Sys2Proof Sys2Proof.Machine

/-! ## Encoding -/

/-- Rests on 30_encoding.md sections 2 and 3: the opcode map. All eight 3-bit patterns are legal micro-ops and stand for these; all but `WAIT 1` and `PUSH 1`
are used in the reference program, with `WAIT 0` at address 0, `SAMPLE 0` at 3..11 and `PUSH 0` at 82 only. That the number 8 is refused, and by this
name, is the model's choice (log entry 9): the spec says only that an entry wider than 3 bits does not exist. -/
def Obligations.EightEntryValuesDecodeAsTheMapSays : Prop :=
  (List.range 9).map decodeWord
      = [.ok (.wait 0), .ok (.hold 0), .ok (.sample 0), .ok (.push 0), .ok (.wait 1), .ok (.hold 1), .ok (.sample 1), .ok (.push 1),
        .error .entryTooWide]
    ∧ (∀ w : Entry, w ∈ referenceUprog ↔ w ≠ 4 ∧ w ≠ 7)
    ∧ (∀ a : Fin 83, (referenceUprog[a.val]? = some 0 ↔ a.val = 0) ∧ (referenceUprog[a.val]? = some 2 ↔ 3 ≤ a.val ∧ a.val ≤ 11)
      ∧ (referenceUprog[a.val]? = some 3 ↔ a.val = 82))

/-- R45: an entry is `4*clk + op`, with `op` 0 WAIT, 1 HOLD, 2 SAMPLE, 3 PUSH: decoding and encoding agree on every entry and on every micro-operation. -/
def Obligations.EntryIsFourTimesClockPlusOperation : Prop :=
  (∀ c : Level, (encode (.wait c)).map BitVec.toNat = [4 * c.toNat] ∧ (encode (.hold c)).map BitVec.toNat = [4 * c.toNat + 1]
      ∧ (encode (.sample c)).map BitVec.toNat = [4 * c.toNat + 2] ∧ (encode (.push c)).map BitVec.toNat = [4 * c.toNat + 3])
    ∧ (∀ w : Entry, encode (decode w) = [w])
    ∧ ∀ i : Instr, i.isMicroOp = true → (encode i).map decode = [i]

/-- Rests on 30_encoding.md sections 1 and 5: every well-formed program is read back from its ROM as it was written, entry for entry; and every
ROM is the ROM of the program it holds. -/
def Obligations.AssembledProgramDisassemblesToItself : Prop :=
  (∀ p : List Instr, programWf p = true → disassemble (assemble p) = p ∧ (assemble p).length = p.length)
    ∧ ∀ rom : List Entry, assemble (disassemble rom) = rom

/-- Rests on 30_encoding.md sections 4 and 6: the 83 entries by address, that the listing of section 6 expands to them, and the counts of section 4,
which the spec derives by counting. -/
def Obligations.ReferenceProgramIsItsListing : Prop :=
  assemble (expandListing referenceListing) = referenceUprog ∧ referenceUprog.length = 83
    ∧ referenceUprog.take 3 = [0, 5, 1]
    ∧ (∀ a : Fin 9, referenceUprog[3 + a.val]? = some 2)
    ∧ (∀ k : Fin 23, referenceUprog[12 + 3 * k.val]? = some 5 ∧ referenceUprog[13 + 3 * k.val]? = some 6
      ∧ referenceUprog[14 + 3 * k.val]? = some 1)
    ∧ referenceUprog.drop 81 = [5, 3]
    ∧ referenceUprog.count 0 = 1 ∧ referenceUprog.count 2 = 9 ∧ referenceUprog.count 6 = 23 ∧ referenceUprog.count 3 = 1
    ∧ referenceUprog.count 5 = 25 ∧ referenceUprog.count 1 = 24
    ∧ risingEdges 0#1 (referenceUprog.map Entry.clk) = 25

/-! ## The micro-operations and the host requests -/

/-- R61: `WAIT c` has value `4c`, drives the clock to `c`, keeps `upc` while the data line reads 1 and else takes `next(upc)`; nothing else changes and
nothing stops it. -/
def Obligations.WaitStallsWhileTheDataLineIsHigh : Prop :=
  ∀ (c : Level) (s : State),
    (encode (.wait c)).map BitVec.toNat = [4 * c.toNat]
      ∧ exec (.wait c) s = .next { s with clk := c, upc := if (s.clkOut c).dataIn = 1#1 then s.upc else nextUpc s }

/-- R62: `HOLD c` has value `4c + 1`, drives the clock to `c` and takes `next(upc)`; nothing else changes, it never stalls, and the data line is of no
account. -/
def Obligations.HoldOnlyDrivesTheClock : Prop :=
  ∀ (c : Level) (s : State),
    (encode (.hold c)).map BitVec.toNat = [4 * c.toNat + 1]
      ∧ exec (.hold c) s = .next { s with clk := c, upc := nextUpc s }

/-- R63: `SAMPLE c` has value `4c + 2`, drives the clock to `c`, shifts the data bit into `sr` at the least-significant end, which is
`(2*unsigned32(sr) + d) mod 2^32`, and takes `next(upc)`; nothing else changes and it never stalls. -/
def Obligations.SampleShiftsTheDataBitIntoSr : Prop :=
  ∀ (c : Level) (s : State),
    (encode (.sample c)).map BitVec.toNat = [4 * c.toNat + 2]
      ∧ exec (.sample c) s
        = .next { s with clk := c, sr := s.sr.extractLsb' 0 31 ++ (s.clkOut c).dataIn, upc := nextUpc s }
      ∧ unsigned32 (s.sr.extractLsb' 0 31 ++ (s.clkOut c).dataIn)
        = (2 * unsigned32 s.sr + (s.clkOut c).dataIn.toNat) % 2 ^ 32

/-- R64: `PUSH c` has value `4c + 3` and drives the clock to `c`; on a full queue nothing else changes, else `sr` is appended and `upc` takes
`next(upc)`; `sr` is kept. -/
def Obligations.PushAppendsSrOrStalls : Prop :=
  ∀ (c : Level) (s : State),
    (encode (.push c)).map BitVec.toNat = [4 * c.toNat + 3]
      ∧ exec (.push c) s
        = if s.fifo.length = s.cfg.fifoDepth then .next { s with clk := c }
          else .next { s with clk := c, fifo := s.fifo ++ [s.sr], upc := nextUpc s }

/-- Rests on 42_host_interface.md section 1: START has no encoding; it sets `en` and touches nothing else, so it has no effect when `en = 1`; and it is effective from the next tick: a
tick that begins idle stays idle. -/
def Obligations.StartEnablesFromTheNextTick : Prop :=
  encode .start = []
    ∧ (∀ s : State, exec .start s = .next { s with en := true })
    ∧ (∀ s : State, s.en = true → exec .start s = .next s)
    ∧ ∀ s : State, s.rstNow = false → s.en = false → s.startNow = true →
        ∃ t, step s = .next t ∧ t.en = true ∧ t.upc = s.upc ∧ t.clk = 0#1 ∧ t.sr = s.sr

/-- R86: POP has no encoding; on a queue with words the host receives the oldest and it is removed; on an empty queue it receives nothing and nothing
of the spec's state changes; two POPs take two successive words. -/
def Obligations.PopTakesTheOldestWord : Prop :=
  encode .pop = []
    ∧ (∀ (s : State) (w : Word) (rest : List Word), s.fifo = w :: rest →
        exec .pop s = .next { s with delivered := some w, fifo := rest })
    ∧ (∀ s : State, s.fifo = [] → exec .pop s = .next { s with delivered := none })
    ∧ ∀ (s : State) (v w : Word) (rest : List Word), s.fifo = v :: w :: rest →
        ∃ t, exec .pop s = .next t ∧ t.delivered = some v ∧ exec .pop t = .next { s with delivered := some w, fifo := rest }

/-- Rests on 40_microops.md sections 2 to 5 and 42_host_interface.md section 1: what each operation leaves unchanged. -/
def Obligations.OperationsLeaveTheRestUnchanged : Prop :=
  ∀ (i : Instr) (s t : State), exec i s = .next t →
    t.cfg = s.cfg ∧ t.inputs = s.inputs ∧ t.clkHistory = s.clkHistory
      ∧ (i ≠ .start → t.en = s.en)
      ∧ (i.isMicroOp = false → t.upc = s.upc ∧ t.clk = s.clk)
      ∧ ((∀ c, i ≠ .sample c) → t.sr = s.sr)
      ∧ ((∀ c, i ≠ .push c) → i ≠ .pop → t.fifo = s.fifo)
      ∧ (i ≠ .pop → t.delivered = s.delivered)

/-! ## The tick -/

/-- R110: in a tick with `rst` asserted every piece of state takes its reset value, the clock line is low, and nothing else happens: host requests are
ignored, so the host receives nothing and a START is lost, and no micro-op executes. The engine is then idle. The configuration is not state and stays. -/
def Obligations.ResetTickClearsTheEngine : Prop :=
  ∀ s : State, s.rstNow = true →
    ∃ t, step s = .next t ∧ t.en = false ∧ t.upc = 0#7 ∧ t.clk = 0#1 ∧ t.sr = 0#32 ∧ t.fifo = [] ∧ t.delivered = none ∧ t.cfg = s.cfg

/-- R22: the values after reset. -/
def Obligations.StateAfterReset : Prop :=
  State.reset.en = false ∧ State.reset.upc = 0#7 ∧ State.reset.clk = 0#1 ∧ State.reset.sr = 0#32 ∧ State.reset.fifo = []
    ∧ State.reset.rxValid = false

/-- R66: a tick with `en = 0` changes nothing but applies the host's requests, with the clock line low; the data line is not read; the engine leaves this
condition only by START. -/
def Obligations.IdleTickOnlyAppliesHostRequests : Prop :=
  ∀ s : State, s.rstNow = false → s.en = false →
    ∃ t, step s = .next t ∧ t.en = s.startNow ∧ t.clk = 0#1 ∧ t.upc = s.upc ∧ t.sr = s.sr ∧ t.cfg = s.cfg
      ∧ t.fifo = (if s.popNow then s.fifo.tail else s.fifo) ∧ t.delivered = (if s.popNow then s.fifo.head? else none)

/-- The model's own fields (log entries 1 and 2): after every tick the clock's history has the tick's level in front and the tick's inputs are spent. -/
def Obligations.EveryTickRecordsItsClockLevel : Prop :=
  ∀ s t : State, step s = .next t → t.clkHistory = t.clk :: s.clkHistory ∧ t.inputs = s.inputs.tail

/-- Rests on 40_microops.md section 1: in a running tick without reset, when the entry at `upc` is `w`, the step is `exec` of the micro-operation `w` decodes
to, at the state after the host phase; around it the step only puts the tick's clock level into the clock's history and drops the tick's inputs. -/
def Obligations.StepRunsTheDecodedInstruction : Prop :=
  ∀ (s : State) (w : Entry), s.rstNow = false → s.en = true → s.cfg.uprog[s.upc.toNat]? = some w →
    (decode w).isMicroOp = true
      ∧ step s = mapNext (fun t => { t with clkHistory := t.clk :: t.clkHistory, inputs := t.inputs.tail })
          (exec (decode w) (hostPhase s))

/-- Rests on 40_microops.md section 1 and 42_host_interface.md section 1: the host phase is POP's and START's meaning, in that order, each if it is requested;
nothing was delivered in the tick before it. -/
def Obligations.HostPhaseIsPopThenStart : Prop :=
  ∀ s : State,
    ∃ p, (if s.popNow then exec .pop { s with delivered := none } else .next { s with delivered := none }) = .next p
      ∧ (if s.startNow then exec .start p else .next p) = .next (hostPhase s)

/-- Rests on 30_encoding.md section 3 and 60_exceptions.md section 1: a step refuses exactly when it would fetch outside UPROG, and under that name. -/
def Obligations.StepRefusesExactlyOutsideTheProgram : Prop :=
  ∀ (s : State) (r : Refusal), step s = .refused r ↔
    s.rstNow = false ∧ s.en = true ∧ s.cfg.uprog.length ≤ s.upc.toNat ∧ r = .fetchOutsideUprog

/-- R40: within one tick a POP is applied before the micro-op. On a full queue the POP frees a place and the PUSH of the same tick succeeds; on an
empty queue the POP returns nothing, and the pushed word is there from the next tick. -/
def Obligations.PopIsAppliedBeforeThePushOfItsTick : Prop :=
  ∀ (s : State) (w : Entry) (c : Level), s.rstNow = false → s.en = true → s.popNow = true →
    s.cfg.uprog[s.upc.toNat]? = some w → decode w = .push c →
    (∀ (x : Word) (rest : List Word), s.fifo = x :: rest → s.fifo.length = s.cfg.fifoDepth →
        ∃ t, step s = .next t ∧ t.delivered = some x ∧ t.fifo = rest ++ [s.sr] ∧ t.upc = nextUpc s)
      ∧ (s.fifo = [] → 1 ≤ s.cfg.fifoDepth →
        ∃ t, step s = .next t ∧ t.delivered = none ∧ t.fifo = [s.sr] ∧ t.upc = nextUpc s ∧ t.rxData = some s.sr)

/-- Rests on 42_host_interface.md section 2: a POP succeeds in a tick exactly when it is requested and `rx_valid = 1`, the word is `rx_data` of that
tick, and `rx_valid` is that the queue has a word. -/
def Obligations.PopSucceedsExactlyWhenRxValid : Prop :=
  ∀ s t : State, s.rstNow = false → step s = .next t →
    t.delivered = (if s.popNow && s.rxValid then s.rxData else none)
      ∧ (s.rxValid = true ↔ s.fifo ≠ []) ∧ (s.rxValid = true ↔ s.rxData.isSome)

/-- R15: with `en = 1` the clock takes the `clk` field of the micro-op at `upc`, whether or not it stalls; with `en = 0` it is 0 (and in a reset tick). -/
def Obligations.ClockTakesTheSideSetBit : Prop :=
  ∀ s t : State, step s = .next t →
    (s.rstNow = true ∨ s.en = false → t.clk = 0#1)
      ∧ (s.rstNow = false → s.en = true → ∃ w, s.cfg.uprog[s.upc.toNat]? = some w ∧ t.clk = w.extractLsb' 2 1)

/-- R65: after a micro-op that does not stall `upc` takes `next(upc)`, after a stall it is unchanged; only WAIT (data line high) and PUSH (queue full after
the host phase) stall; the wrap is from the last address to 0. An idle tick keeps `upc`. -/
def Obligations.UpcAdvancesUnlessWaitOrPushStalls : Prop :=
  (∀ s : State, s.upc.toNat < s.cfg.uprog.length → s.cfg.uprog.length ≤ 128 →
      (nextUpc s).toNat = if s.upc.toNat + 1 = s.cfg.uprog.length then 0 else s.upc.toNat + 1)
    ∧ ∀ s t : State, s.rstNow = false → step s = .next t →
      (s.en = false → t.upc = s.upc)
        ∧ (∀ w c, s.en = true → s.cfg.uprog[s.upc.toNat]? = some w → decode w = .wait c →
            t.upc = if ((hostPhase s).clkOut c).dataIn = 1#1 then s.upc else nextUpc s)
        ∧ (∀ w c, s.en = true → s.cfg.uprog[s.upc.toNat]? = some w → decode w = .push c →
            t.upc = if (hostPhase s).fifo.length = s.cfg.fifoDepth then s.upc else nextUpc s)
        ∧ (∀ w c, s.en = true → s.cfg.uprog[s.upc.toNat]? = some w → (decode w = .hold c ∨ decode w = .sample c) →
            t.upc = nextUpc s)

/-- Rests on 10_state.md section 6: `en` is set by START and cleared only by reset. -/
def Obligations.EnableIsSetByStartAndClearedByReset : Prop :=
  ∀ s t : State, step s = .next t → t.en = (!s.rstNow && (s.en || s.startNow))

/-- Rests on 10_state.md section 2: a tick changes `sr` only if it resets or executes a SAMPLE. -/
def Obligations.SrIsWrittenOnlyBySampleAndReset : Prop :=
  ∀ s t : State, step s = .next t → t.sr ≠ s.sr →
    (s.rstNow = true ∧ t.sr = 0#32)
      ∨ ∃ w c, s.en = true ∧ s.cfg.uprog[s.upc.toNat]? = some w ∧ decode w = .sample c
          ∧ t.sr = shiftInsert s.sr ((hostPhase s).clkOut c).dataIn

/-- Rests on 10_state.md section 2: `sr` is read only by the PUSH that appends it: in every other tick its value shows nowhere but in `sr`. -/
def Obligations.SrShowsOnlyThroughPush : Prop :=
  ∀ (s : State) (x : Word), pushedNow s = none →
    mapNext (fun t => { t with sr := 0#32 }) (step { s with sr := x }) = mapNext (fun t => { t with sr := 0#32 }) (step s)

/-- R7: no operation of the engine or of the host changes the configuration; no run of ticks does. -/
def Obligations.ConfigurationIsImmutable : Prop :=
  (∀ (i : Instr) (s t : State), exec i s = .next t → t.cfg = s.cfg)
    ∧ ∀ (k : Nat) (s t : State), ticks k s = .next t → t.cfg = s.cfg

/-- Rests on 20_memory.md section 3: the data line is read in WAIT and SAMPLE ticks only; in HOLD, PUSH, idle and reset ticks its level makes no
difference. -/
def Obligations.DataLineIsIgnoredOutsideWaitAndSample : Prop :=
  ∀ (s : State) (i : TickInput) (d : Level) (rest : List TickInput),
    (s.en = false ∨ i.rst = true ∨ ∃ w c, s.cfg.uprog[s.upc.toNat]? = some w ∧ (decode w = .hold c ∨ decode w = .push c)) →
    step { s with inputs := i :: rest } = step { s with inputs := { i with data := d } :: rest }

/-- Rests on 40_microops.md section 6, where the spec derives it: the state after a tick depends on the state before it and the tick's inputs alone, not on
the clock's earlier levels, later inputs or what was delivered before. -/
def Obligations.TickDependsOnStateAndItsInputsOnly : Prop :=
  ∀ (s t : State) (i : TickInput) (rs rt : List TickInput), s.inputs = i :: rs → t.inputs = i :: rt →
    ({ s with delivered := none } : State).architectural = ({ t with delivered := none } : State).architectural →
    mapNext State.architectural (step s) = mapNext State.architectural (step t)

/-! ## The queue -/

/-- Rests on 20_memory.md sections 6 and 7: in a tick without reset the words popped and then the queue are the queue and then the word pushed; the
host receives the popped word. Nothing is dropped, copied or overwritten. -/
def Obligations.EachTickKeepsTheQueueInOrder : Prop :=
  ∀ s t : State, s.rstNow = false → step s = .next t →
    (poppedNow s).toList ++ t.fifo = s.fifo ++ (pushedNow s).toList ∧ t.delivered = poppedNow s

/-- Rests on 20_memory.md section 9, queue order: over any run without reset the words leave the queue in the order they entered, each exactly
once: popped then remaining is initial then pushed. -/
def Obligations.WordsLeaveInTheOrderTheyEntered : Prop :=
  ∀ (k : Nat) (s t : State), ticks k s = .next t → (∀ x ∈ visited k s, x.rstNow = false) →
    (visited k s).filterMap poppedNow ++ t.fifo = s.fifo ++ (visited k s).filterMap pushedNow

/-- Rests on 42_host_interface.md section 3 and 10_state.md section 9: while the host does not POP, no more words are pushed than the queue has
places left. -/
def Obligations.UnreadSamplesAreBoundedByTheQueue : Prop :=
  ∀ (k : Nat) (s t : State), s.Inv → ticks k s = .next t → (∀ x ∈ visited k s, x.rstNow = false ∧ x.popNow = false) →
    ((visited k s).filterMap pushedNow).length + s.fifo.length ≤ s.cfg.fifoDepth

/-! ## Invariants -/

/-- Rests on 10_state.md section 10: the invariant holds after reset. -/
def Obligations.InvariantHoldsAtReset : Prop := State.reset.Inv

/-- Rests on 10_state.md sections 1, 3, 6 and 20_memory.md section 6: every step keeps the invariant, with any program. -/
def Obligations.EveryStepKeepsTheInvariant : Prop :=
  ∀ s t : State, s.Inv → step s = .next t → t.Inv

/-- Rests on 60_exceptions.md section 1 and 92_eei_decisions.md D16: from a state that meets the invariant every number of ticks has a next state: the
engine has no fault and no end of run, a stall is a step. -/
def Obligations.TheEngineNeverStops : Prop :=
  ∀ (k : Nat) (s : State), s.Inv → ∃ t, ticks k s = .next t ∧ t.Inv

/-- Rests on 30_encoding.md section 4: the reference program's invariant holds after reset. -/
def Obligations.ReferenceInvariantHoldsAtReset : Prop := State.reset.ReferenceInv

/-- Rests on 41_frame_cycle.md section 2 and 70_reset_and_hazards.md section 3 (the clock is never left high): with the reference program every step keeps
the invariant that ties the clock's recent levels to `upc` and lets no high run of the clock exceed 2 ticks. -/
def Obligations.EveryStepKeepsTheReferenceInvariant : Prop :=
  ∀ s t : State, s.ReferenceInv → step s = .next t → t.ReferenceInv

/-- Rests on 41_frame_cycle.md section 3, where the spec derives it: with the reference program no SAMPLE coincides with a clock edge: its clock level is
that of the tick before. -/
def Obligations.NoReadCoincidesWithAClockEdge : Prop :=
  ∀ (s : State) (w : Entry) (c : Level), s.ReferenceInv → s.en = true → s.cfg.uprog[s.upc.toNat]? = some w → decode w = .sample c →
    s.clk = c

/-- Rests on 70_reset_and_hazards.md section 3 (the frame must not be interrupted): with the reference program, between addresses 1 and 81 every tick
without reset executes one micro-op and goes on to the next address. -/
def Obligations.FrameIsNeverInterrupted : Prop :=
  ∀ s : State, s.cfg.uprog = referenceUprog → s.en = true → s.rstNow = false → 1 ≤ s.upc.toNat → s.upc.toNat ≤ 81 →
    ∃ t, step s = .next t ∧ t.upc.toNat = s.upc.toNat + 1 ∧ t.en = true

/-! ## The frame cycle of the reference program -/

/-- Rests on 70_reset_and_hazards.md section 1: from an idle engine, the ticks until START and START's own keep the clock low and read nothing; after
them the engine is enabled at address 0 with the reset values, and the first micro-op is `WAIT 0`. -/
def Obligations.FirstMicroOpAfterStartIsAtAddressZero : Prop :=
  ∀ (s : State) (idle : List TickInput) (go : TickInput) (rest : List TickInput),
    s.Inv → s.cfg.uprog = referenceUprog → s.en = false → s.inputs = idle ++ go :: rest →
    (∀ i ∈ idle, i.rst = false ∧ i.start = false) → go.rst = false → go.start = true →
    ∃ t, ticks (idle.length + 1) s = .next t ∧ t.en = true ∧ t.upc = 0#7 ∧ t.sr = 0#32 ∧ t.fifo = [] ∧ t.inputs = rest
      ∧ t.clkHistory = List.replicate (idle.length + 1) 0#1 ++ s.clkHistory ∧ fetch t = .ok (.wait 0#1)

/-- Rests on 41_frame_cycle.md section 3: the word a cycle pushes is made of its 32 reads and of nothing else: read `i` lands in bit `31-i`, whatever `sr`
held before and whatever the line answers. -/
def Obligations.CycleWordIsItsThirtyTwoReads : Prop :=
  ∀ (s : State) (c : CycleInputs) (rest : List TickInput), c.StartsAt s rest →
    ∃ t, ticks (c.wait.length + 82) s = .next t ∧ t.upc = 82#7 ∧ t.en = true ∧ t.inputs = rest
      ∧ ∀ i : Nat, i < 32 → c.line[readTick i]? = some (t.sr.extractLsb' (31 - i) 1)

/-- Rests on 41_frame_cycle.md section 2: the clock's levels over the waiting ticks and the ticks `T0 .. T0+81`: low while waiting, then high in exactly
`T0+1`, `T0+12+3k`, `T0+13+3k` (`k = 0..22`) and `T0+81`: 25 pulses. -/
def Obligations.CycleClockHasTwentyFivePulses : Prop :=
  ∀ (s : State) (c : CycleInputs) (rest : List TickInput), c.StartsAt s rest →
    ∃ t, ticks (c.wait.length + 82) s = .next t
      ∧ t.clkHistory.drop (82 + c.wait.length) = s.clkHistory
      ∧ (∀ n, n < c.wait.length → t.clkHistory[82 + n]? = some 0#1)
      ∧ (∀ o, o < 82 → t.clkHistory[81 - o]?
          = some (if o = 1 ∨ o = 81 ∨ (12 ≤ o ∧ o ≤ 79 ∧ o % 3 ≠ 2) then 1#1 else 0#1))
      ∧ risingEdges 0#1 (t.clkHistory.take (82 + c.wait.length)).reverse = 25

/-- Rests on 41_frame_cycle.md sections 1 and 7: a cycle with `W` waiting ticks (the last reads low) and `S` stalled PUSH ticks lasts `W + 82 + S` ticks;
the stalled ticks and the PUSH keep the clock low; the word pushed is `sr`, and the engine is back at address 0. -/
def Obligations.CycleLastsWaitPlusEightyTwoPlusStall : Prop :=
  ∀ (s : State) (c : CycleInputs) (stall : List TickInput) (last : TickInput) (rest : List TickInput),
    c.StartsAt s (stall ++ last :: rest) → (∀ i ∈ stall, i.rst = false ∧ i.pop = false) → last.rst = false →
    ∃ t, ticks (c.wait.length + 82) s = .next t ∧ t.upc = 82#7
      ∧ ((stall = [] ∨ t.fifo.length = s.cfg.fifoDepth) → (last.pop = true ∨ t.fifo.length ≠ s.cfg.fifoDepth) →
        ∃ u, ticks ((c.wait.length + 1) + 82 + stall.length) s = .next u ∧ u.upc = 0#7 ∧ u.inputs = rest
          ∧ u.fifo = (if last.pop then t.fifo.tail else t.fifo) ++ [t.sr]
          ∧ u.clkHistory = List.replicate (stall.length + 1) 0#1 ++ t.clkHistory)

/-- Rests on 41_frame_cycle.md sections 4 and 5 (the result guarantee), which lean on the spec's assumption about the ADC, as `adcContract` formalises it (log
entry 14): if, with some readiness of the ADC, the line answers the clock levels the engine drives as the contract for `v` says, the word pushed at the end of the cycle is
`sext_24(v)`, read as the integer `v`, in `-2^23 .. 2^23 - 1`. -/
def Obligations.CyclePushesTheSignExtendedConversion : Prop :=
  ∀ (v : BitVec 24) (s : State) (c : CycleInputs) (last : TickInput) (rest : List TickInput) (ready : List Bool),
    c.StartsAt s (last :: rest) → last.rst = false → ready.length = c.wait.length + 82 →
    ∃ t, ticks (c.wait.length + 82) s = .next t
      ∧ (adcContract v s.clk 0 (adcTicks (c.wait.length + 82) t.clkHistory c.all ready) = true →
        t.sr = sext24 v ∧ signed32 t.sr = v.toInt ∧ -2 ^ 23 ≤ signed32 t.sr ∧ signed32 t.sr ≤ 2 ^ 23 - 1
          ∧ (last.pop = true ∨ t.fifo.length ≠ s.cfg.fifoDepth →
            ∃ u, ticks (c.wait.length + 83) s = .next u ∧ u.fifo.getLast? = some (sext24 v)))

/-- Rests on 41_frame_cycle.md section 4, item 4, and 93_implementation_defined.md G2 (general knowledge), as `adcContract` formalises them (log entry 14): after a cycle
whose PUSH found room, while the ADC has no next conversion ready, the line is high and the engine waits at address 0 with the clock low and the word still in
`sr`: it does not read the old conversion again. -/
def Obligations.NextCycleWaitsForTheNextConversion : Prop :=
  ∀ (v : BitVec 24) (s : State) (c : CycleInputs) (last : TickInput) (busy rest : List TickInput) (ready : List Bool),
    c.StartsAt s (last :: (busy ++ rest)) → last.rst = false → (∀ i ∈ busy, i.rst = false) →
    ready.length = c.wait.length + 83 + busy.length → (∀ r ∈ ready.drop (c.wait.length + 83), r = false) →
    ∃ t, ticks (c.wait.length + 82) s = .next t
      ∧ (last.pop = true ∨ t.fifo.length ≠ s.cfg.fifoDepth →
        ∃ u, ticks (c.wait.length + 83 + busy.length) s = .next u
          ∧ (adcContract v s.clk 0
              (adcTicks (c.wait.length + 83 + busy.length) u.clkHistory (c.all ++ last :: busy) ready) = true →
            last.data = 1#1 ∧ (∀ i ∈ busy, i.data = 1#1) ∧ u.upc = 0#7 ∧ u.sr = sext24 v ∧ u.inputs = rest
              ∧ u.clkHistory = List.replicate (busy.length + 1) 0#1 ++ t.clkHistory))

/-- R79: the sign-extension law: for every 24-bit field `f`, `sext_24(f)` is `f` when `f[23] = 0` and `f + 0xFF000000` when `f[23] = 1`, bits 24 to 31 replicate
bit 23, and the signed reading is that of the 24-bit field. -/
def Obligations.SignExtensionKeepsTheValue : Prop :=
  ∀ f : BitVec 24,
    (f.getLsbD 23 = false → (sext24 f).toNat = f.toNat)
      ∧ (f.getLsbD 23 = true → (sext24 f).toNat = f.toNat + 0xFF000000)
      ∧ (∀ i, i < 24 → (sext24 f).getLsbD i = f.getLsbD i)
      ∧ (∀ i, 24 ≤ i → i < 32 → (sext24 f).getLsbD i = f.getLsbD 23)
      ∧ signed32 (sext24 f) = f.toInt

/-- Rests on 40_microops.md section 4, corner case (a): 32 SAMPLEs replace all of `sr`: the old contents have no influence. -/
def Obligations.ThirtyTwoShiftsForgetTheOldContents : Prop :=
  ∀ (x y : Word) (bits : List Level), 32 ≤ bits.length → bits.foldl shiftInsert x = bits.foldl shiftInsert y

/-- Rests on 41_frame_cycle.md section 7, where the spec derives it: a data line that is always low gives one word `0x00000000` every 83 ticks, while the
queue has room. -/
def Obligations.LineStuckLowPushesZeros : Prop :=
  ∀ (n : Nat) (s : State) (low rest : List TickInput), s.Inv → s.cfg.uprog = referenceUprog → s.en = true → s.upc = 0#7 →
    s.inputs = low ++ rest → low.length = 83 * n → (∀ i ∈ low, i.rst = false ∧ i.pop = false ∧ i.data = 0#1) →
    s.fifo.length + n ≤ s.cfg.fifoDepth →
    ∃ t, ticks (83 * n) s = .next t ∧ t.upc = 0#7 ∧ t.en = true ∧ t.inputs = rest ∧ t.fifo = s.fifo ++ List.replicate n 0#32

/-- Rests on 40_microops.md section 2 and 60_exceptions.md section 1: with any program, a data line that stays high keeps the engine at a WAIT for any number
of ticks, with the clock at the WAIT's level: no edge, no sample, no push; POPs only drain the queue. At address 0 of the reference program the level
is 0. -/
def Obligations.WaitHasNoTimeout : Prop :=
  ∀ (s : State) (w : Entry) (c : Level) (high rest : List TickInput), s.en = true → s.cfg.uprog[s.upc.toNat]? = some w →
    decode w = .wait c → s.inputs = high ++ rest → (∀ i ∈ high, i.rst = false ∧ i.data = 1#1) →
    ∃ t, ticks high.length s = .next t ∧ t.upc = s.upc ∧ t.en = true ∧ t.sr = s.sr ∧ t.inputs = rest
      ∧ t.clkHistory = List.replicate high.length c ++ s.clkHistory
      ∧ t.fifo = s.fifo.drop (high.countP (fun i => i.pop))

/-- Rests on 40_microops.md section 5 and 60_exceptions.md section 1: with any program, a PUSH on a full queue that the host does not POP stalls for any number
of ticks: `sr`, the queue and `upc` stay, and the clock stays at the PUSH's level. -/
def Obligations.FullQueueStallsPushForEver : Prop :=
  ∀ (s : State) (w : Entry) (c : Level) (busy rest : List TickInput), s.en = true → s.cfg.uprog[s.upc.toNat]? = some w →
    decode w = .push c → s.fifo.length = s.cfg.fifoDepth → s.inputs = busy ++ rest →
    (∀ i ∈ busy, i.rst = false ∧ i.pop = false) →
    ∃ t, ticks busy.length s = .next t ∧ t.upc = s.upc ∧ t.en = true ∧ t.sr = s.sr ∧ t.fifo = s.fifo ∧ t.inputs = rest
      ∧ t.clkHistory = List.replicate busy.length c ++ s.clkHistory

/-! ## Several engines, and a word put where the fetch finds it -/

/-- Rests on 60_exceptions.md section 7: engines of which two have a pin in common, be it a clock or a data pin of either, are refused; else each takes its own
step and nothing of another's. Two clauses are the model's choice: that all engines of a system take their tick together, so that its next states are theirs one
by one (log entry 13); and that an engine's step has nothing of another's in the ADC's, the host's and the reset's answers either, on which the spec is silent
(log entry 17). -/
def Obligations.EnginesOnSharedPinsAreRefused : Prop :=
  ∀ ss : List State,
    let exclusive := ss.Pairwise fun a b => a.cfg.clockPin ≠ b.cfg.clockPin ∧ a.cfg.clockPin ≠ b.cfg.dataPin
      ∧ a.cfg.dataPin ≠ b.cfg.clockPin ∧ a.cfg.dataPin ≠ b.cfg.dataPin
    (¬exclusive → systemStep ss = .refused .sharedPins)
      ∧ (exclusive → ∀ ts, systemStep ss = .next ts ↔ List.Forall₂ (fun s t => step s = .next t) ss ts)

/-- The model's own (log entries 7 and 9), on 30_encoding.md sections 1 and 3: a word of the opcode table put where the fetch finds it is run by the next step; a
word that is no entry makes it refuse. -/
def Obligations.PlacedTableWordIsRunByTheNextStep : Prop :=
  ∀ (s : State) (nbits w : Nat),
    (∀ i, decodeTableWord nbits w = some i →
        step (s.withFetchWord nbits w) = mapNext State.endTick (exec i (hostPhase (s.withFetchWord nbits w))))
      ∧ (decodeTableWord nbits w = none → step (s.withFetchWord nbits w) = .refused .fetchOutsideUprog)
end

