-- ==== Sys2Proof/Laws/Encoding.lean ====
section
/-! SUPPORT. What a listing, an assembled program and a fetched entry decode to. -/

namespace Sys2Proof

@[simp] theorem encode_length (i : Instr) : (encode i).length = if i.isMicroOp then 1 else 0 := by
  cases i <;> rfl

@[simp] theorem decode_isMicroOp (w : Entry) : (decode w).isMicroOp = true := by
  unfold decode
  split_ifs <;> rfl

@[simp] theorem assemble_nil : assemble [] = [] := rfl

@[simp] theorem assemble_cons (i : Instr) (p : List Instr) : assemble (i :: p) = encode i ++ assemble p := rfl

@[simp] theorem disassemble_nil : disassemble [] = [] := rfl

@[simp] theorem disassemble_cons (w : Entry) (rom : List Entry) : disassemble (w :: rom) = decode w :: disassemble rom := rfl

theorem disassemble_append (a b : List Entry) : disassemble (a ++ b) = disassemble a ++ disassemble b :=
  List.map_append

/-- The side-set level of the decoded micro-operation is the entry's `clk` field. -/
theorem decode_clk (w : Entry) :
    decode w = .wait (Entry.clk w) ∨ decode w = .hold (Entry.clk w) ∨ decode w = .sample (Entry.clk w)
      ∨ decode w = .push (Entry.clk w) := by
  unfold decode
  split_ifs <;> simp

/-- What `decodeTableWord` answers: an entry's decoding, from 3 bits on. -/
theorem decodeTableWord_eq_some {nbits w : Nat} {i : Instr} :
    decodeTableWord nbits w = some i ↔ 3 ≤ nbits ∧ w < 8 ∧ decode (BitVec.ofNat 3 w) = i := by
  unfold decodeTableWord decodeWord
  by_cases h : nbits < 3
  · simp [h]
  · have h3 : 3 ≤ nbits := by omega
    by_cases h8 : w < 8 <;> simp [h, h8, h3]

end Sys2Proof
end

