-- ==== Sys2Proof/Laws/State.lean ====
section
/-! SUPPORT. One lemma per field per update of State: no later proof unfolds a record update. -/

namespace Sys2Proof.Machine

@[simp] theorem State.clkOut_en (s : State) (b : Level) : (s.clkOut b).en = s.en := rfl
@[simp] theorem State.clkOut_upc (s : State) (b : Level) : (s.clkOut b).upc = s.upc := rfl
@[simp] theorem State.clkOut_clk (s : State) (b : Level) : (s.clkOut b).clk = b := rfl
@[simp] theorem State.clkOut_sr (s : State) (b : Level) : (s.clkOut b).sr = s.sr := rfl
@[simp] theorem State.clkOut_fifo (s : State) (b : Level) : (s.clkOut b).fifo = s.fifo := rfl
@[simp] theorem State.clkOut_cfg (s : State) (b : Level) : (s.clkOut b).cfg = s.cfg := rfl
@[simp] theorem State.clkOut_inputs (s : State) (b : Level) : (s.clkOut b).inputs = s.inputs := rfl
@[simp] theorem State.clkOut_clkHistory (s : State) (b : Level) : (s.clkOut b).clkHistory = s.clkHistory := rfl
@[simp] theorem State.clkOut_delivered (s : State) (b : Level) : (s.clkOut b).delivered = s.delivered := rfl

@[simp] theorem State.advance_en (s : State) : s.advance.en = s.en := rfl
@[simp] theorem State.advance_upc (s : State) : s.advance.upc = nextUpc s := rfl
@[simp] theorem State.advance_clk (s : State) : s.advance.clk = s.clk := rfl
@[simp] theorem State.advance_sr (s : State) : s.advance.sr = s.sr := rfl
@[simp] theorem State.advance_fifo (s : State) : s.advance.fifo = s.fifo := rfl
@[simp] theorem State.advance_cfg (s : State) : s.advance.cfg = s.cfg := rfl
@[simp] theorem State.advance_inputs (s : State) : s.advance.inputs = s.inputs := rfl
@[simp] theorem State.advance_clkHistory (s : State) : s.advance.clkHistory = s.clkHistory := rfl
@[simp] theorem State.advance_delivered (s : State) : s.advance.delivered = s.delivered := rfl

@[simp] theorem State.shiftIn_en (s : State) (d : Level) : (s.shiftIn d).en = s.en := rfl
@[simp] theorem State.shiftIn_upc (s : State) (d : Level) : (s.shiftIn d).upc = s.upc := rfl
@[simp] theorem State.shiftIn_clk (s : State) (d : Level) : (s.shiftIn d).clk = s.clk := rfl
@[simp] theorem State.shiftIn_sr (s : State) (d : Level) : (s.shiftIn d).sr = shiftInsert s.sr d := rfl
@[simp] theorem State.shiftIn_fifo (s : State) (d : Level) : (s.shiftIn d).fifo = s.fifo := rfl
@[simp] theorem State.shiftIn_cfg (s : State) (d : Level) : (s.shiftIn d).cfg = s.cfg := rfl
@[simp] theorem State.shiftIn_inputs (s : State) (d : Level) : (s.shiftIn d).inputs = s.inputs := rfl
@[simp] theorem State.shiftIn_clkHistory (s : State) (d : Level) : (s.shiftIn d).clkHistory = s.clkHistory := rfl
@[simp] theorem State.shiftIn_delivered (s : State) (d : Level) : (s.shiftIn d).delivered = s.delivered := rfl

@[simp] theorem State.fifoPush_en (s : State) (w : Word) : (s.fifoPush w).en = s.en := rfl
@[simp] theorem State.fifoPush_upc (s : State) (w : Word) : (s.fifoPush w).upc = s.upc := rfl
@[simp] theorem State.fifoPush_clk (s : State) (w : Word) : (s.fifoPush w).clk = s.clk := rfl
@[simp] theorem State.fifoPush_sr (s : State) (w : Word) : (s.fifoPush w).sr = s.sr := rfl
@[simp] theorem State.fifoPush_fifo (s : State) (w : Word) : (s.fifoPush w).fifo = s.fifo ++ [w] := rfl
@[simp] theorem State.fifoPush_cfg (s : State) (w : Word) : (s.fifoPush w).cfg = s.cfg := rfl
@[simp] theorem State.fifoPush_inputs (s : State) (w : Word) : (s.fifoPush w).inputs = s.inputs := rfl
@[simp] theorem State.fifoPush_clkHistory (s : State) (w : Word) : (s.fifoPush w).clkHistory = s.clkHistory := rfl
@[simp] theorem State.fifoPush_delivered (s : State) (w : Word) : (s.fifoPush w).delivered = s.delivered := rfl

@[simp] theorem State.hostPop_en (s : State) : s.hostPop.en = s.en := rfl
@[simp] theorem State.hostPop_upc (s : State) : s.hostPop.upc = s.upc := rfl
@[simp] theorem State.hostPop_clk (s : State) : s.hostPop.clk = s.clk := rfl
@[simp] theorem State.hostPop_sr (s : State) : s.hostPop.sr = s.sr := rfl
@[simp] theorem State.hostPop_fifo (s : State) : s.hostPop.fifo = s.fifo.tail := rfl
@[simp] theorem State.hostPop_cfg (s : State) : s.hostPop.cfg = s.cfg := rfl
@[simp] theorem State.hostPop_inputs (s : State) : s.hostPop.inputs = s.inputs := rfl
@[simp] theorem State.hostPop_clkHistory (s : State) : s.hostPop.clkHistory = s.clkHistory := rfl
@[simp] theorem State.hostPop_delivered (s : State) : s.hostPop.delivered = s.fifo.head? := rfl

@[simp] theorem State.hostStart_en (s : State) : s.hostStart.en = true := rfl
@[simp] theorem State.hostStart_upc (s : State) : s.hostStart.upc = s.upc := rfl
@[simp] theorem State.hostStart_clk (s : State) : s.hostStart.clk = s.clk := rfl
@[simp] theorem State.hostStart_sr (s : State) : s.hostStart.sr = s.sr := rfl
@[simp] theorem State.hostStart_fifo (s : State) : s.hostStart.fifo = s.fifo := rfl
@[simp] theorem State.hostStart_cfg (s : State) : s.hostStart.cfg = s.cfg := rfl
@[simp] theorem State.hostStart_inputs (s : State) : s.hostStart.inputs = s.inputs := rfl
@[simp] theorem State.hostStart_clkHistory (s : State) : s.hostStart.clkHistory = s.clkHistory := rfl
@[simp] theorem State.hostStart_delivered (s : State) : s.hostStart.delivered = s.delivered := rfl

@[simp] theorem State.applyReset_en (s : State) : s.applyReset.en = false := rfl
@[simp] theorem State.applyReset_upc (s : State) : s.applyReset.upc = 0#7 := rfl
@[simp] theorem State.applyReset_clk (s : State) : s.applyReset.clk = 0#1 := rfl
@[simp] theorem State.applyReset_sr (s : State) : s.applyReset.sr = 0#32 := rfl
@[simp] theorem State.applyReset_fifo (s : State) : s.applyReset.fifo = [] := rfl
@[simp] theorem State.applyReset_cfg (s : State) : s.applyReset.cfg = s.cfg := rfl
@[simp] theorem State.applyReset_inputs (s : State) : s.applyReset.inputs = s.inputs := rfl
@[simp] theorem State.applyReset_clkHistory (s : State) : s.applyReset.clkHistory = s.clkHistory := rfl
@[simp] theorem State.applyReset_delivered (s : State) : s.applyReset.delivered = none := rfl

@[simp] theorem State.beginTick_en (s : State) : s.beginTick.en = s.en := rfl
@[simp] theorem State.beginTick_upc (s : State) : s.beginTick.upc = s.upc := rfl
@[simp] theorem State.beginTick_clk (s : State) : s.beginTick.clk = s.clk := rfl
@[simp] theorem State.beginTick_sr (s : State) : s.beginTick.sr = s.sr := rfl
@[simp] theorem State.beginTick_fifo (s : State) : s.beginTick.fifo = s.fifo := rfl
@[simp] theorem State.beginTick_cfg (s : State) : s.beginTick.cfg = s.cfg := rfl
@[simp] theorem State.beginTick_inputs (s : State) : s.beginTick.inputs = s.inputs := rfl
@[simp] theorem State.beginTick_clkHistory (s : State) : s.beginTick.clkHistory = s.clkHistory := rfl
@[simp] theorem State.beginTick_delivered (s : State) : s.beginTick.delivered = none := rfl

@[simp] theorem State.endTick_en (s : State) : s.endTick.en = s.en := rfl
@[simp] theorem State.endTick_upc (s : State) : s.endTick.upc = s.upc := rfl
@[simp] theorem State.endTick_clk (s : State) : s.endTick.clk = s.clk := rfl
@[simp] theorem State.endTick_sr (s : State) : s.endTick.sr = s.sr := rfl
@[simp] theorem State.endTick_fifo (s : State) : s.endTick.fifo = s.fifo := rfl
@[simp] theorem State.endTick_cfg (s : State) : s.endTick.cfg = s.cfg := rfl
@[simp] theorem State.endTick_inputs (s : State) : s.endTick.inputs = s.inputs.tail := rfl
@[simp] theorem State.endTick_clkHistory (s : State) : s.endTick.clkHistory = s.clk :: s.clkHistory := rfl
@[simp] theorem State.endTick_delivered (s : State) : s.endTick.delivered = s.delivered := rfl

end Sys2Proof.Machine
end

