-- ==== Sys2Proof/Laws/Step.lean ====
section
/-! SUPPORT. What the parts of a tick, each meaning, a step and a run of ticks can do, said once. -/

namespace Sys2Proof.Machine

section
variable {s t : State} {i : TickInput} {rest : List TickInput}

/-! ### The inputs of a listed tick -/

theorem State.rstNow_of_inputs (h : s.inputs = i :: rest) : s.rstNow = i.rst := by simp [State.rstNow, h]

theorem State.startNow_of_inputs (h : s.inputs = i :: rest) : s.startNow = i.start := by simp [State.startNow, h]

theorem State.popNow_of_inputs (h : s.inputs = i :: rest) : s.popNow = i.pop := by simp [State.popNow, h]

theorem State.dataIn_of_inputs (h : s.inputs = i :: rest) : s.dataIn = i.data := by simp [State.dataIn, h]

/-! ### The host phase: it may pop, it may enable, it touches nothing else -/

theorem popPhase_eq (s : State) :
    popPhase s = { s with delivered := if s.popNow then s.fifo.head? else none, fifo := if s.popNow then s.fifo.tail else s.fifo } := by
  unfold popPhase
  cases s.popNow <;> rfl

theorem hostPhase_eq (s : State) :
    hostPhase s = { s with en := s.en || s.startNow, delivered := if s.popNow then s.fifo.head? else none,
                           fifo := if s.popNow then s.fifo.tail else s.fifo } := by
  unfold hostPhase
  rw [popPhase_eq]
  cases s.startNow <;> simp [State.hostStart]

@[simp] theorem hostPhase_en (s : State) : (hostPhase s).en = (s.en || s.startNow) := by rw [hostPhase_eq]
@[simp] theorem hostPhase_upc (s : State) : (hostPhase s).upc = s.upc := by rw [hostPhase_eq]
@[simp] theorem hostPhase_clk (s : State) : (hostPhase s).clk = s.clk := by rw [hostPhase_eq]
@[simp] theorem hostPhase_sr (s : State) : (hostPhase s).sr = s.sr := by rw [hostPhase_eq]
@[simp] theorem hostPhase_fifo (s : State) : (hostPhase s).fifo = if s.popNow then s.fifo.tail else s.fifo := by rw [hostPhase_eq]
@[simp] theorem hostPhase_cfg (s : State) : (hostPhase s).cfg = s.cfg := by rw [hostPhase_eq]
@[simp] theorem hostPhase_inputs (s : State) : (hostPhase s).inputs = s.inputs := by rw [hostPhase_eq]
@[simp] theorem hostPhase_clkHistory (s : State) : (hostPhase s).clkHistory = s.clkHistory := by rw [hostPhase_eq]
@[simp] theorem hostPhase_delivered (s : State) :
    (hostPhase s).delivered = if s.popNow then s.fifo.head? else none := by rw [hostPhase_eq]

theorem nextUpc_congr (hu : t.upc = s.upc) (hc : t.cfg = s.cfg) : nextUpc t = nextUpc s := by
  unfold nextUpc; rw [hu, hc]

@[simp] theorem nextUpc_clkOut (s : State) (b : Level) : nextUpc (s.clkOut b) = nextUpc s := rfl
@[simp] theorem nextUpc_shiftIn (s : State) (d : Level) : nextUpc (s.shiftIn d) = nextUpc s := rfl
@[simp] theorem nextUpc_fifoPush (s : State) (w : Word) : nextUpc (s.fifoPush w) = nextUpc s := rfl
@[simp] theorem nextUpc_hostPhase (s : State) : nextUpc (hostPhase s) = nextUpc s :=
  nextUpc_congr (hostPhase_upc s) (hostPhase_cfg s)

/-- The next address is inside a program of at most 128 entries. -/
theorem nextUpc_lt (h : s.upc.toNat < s.cfg.uprog.length) (hl : s.cfg.uprog.length ≤ 128) :
    (nextUpc s).toNat < s.cfg.uprog.length := by
  unfold nextUpc
  split
  · simp; omega
  · simp [BitVec.toNat_add]; omega

theorem fetch_congr (hu : t.upc = s.upc) (hc : t.cfg = s.cfg) : fetch t = fetch s := by
  unfold fetch; rw [hu, hc]

@[simp] theorem fetch_hostPhase (s : State) : fetch (hostPhase s) = fetch s :=
  fetch_congr (hostPhase_upc s) (hostPhase_cfg s)

/-- What a fetch answers: the decoding of the entry at `upc`. -/
theorem fetch_eq_ok {i : Instr} : fetch s = .ok i ↔ ∃ w, s.cfg.uprog[s.upc.toNat]? = some w ∧ decode w = i := by
  unfold fetch
  cases s.cfg.uprog[s.upc.toNat]? <;> simp

/-- When a fetch refuses: outside the program. -/
theorem fetch_eq_error {r : Refusal} :
    fetch s = .error r ↔ s.cfg.uprog.length ≤ s.upc.toNat ∧ r = .fetchOutsideUprog := by
  unfold fetch
  cases h : s.cfg.uprog[s.upc.toNat]? with
  | none => rw [List.getElem?_eq_none_iff] at h; simp [h, eq_comm]
  | some w =>
    have := (List.getElem?_eq_some_iff.1 h).1
    simp; omega

/-! ### What each meaning can do -/

theorem execWait_cases {c : Level} (h : execWait c s = .next t) :
    ((s.clkOut c).dataIn = 1#1 ∧ t = s.clkOut c) ∨ ((s.clkOut c).dataIn ≠ 1#1 ∧ t = (s.clkOut c).advance) := by
  simp only [execWait] at h
  split at h <;> cases h <;> simp_all

theorem execHold_cases {c : Level} (h : execHold c s = .next t) : t = (s.clkOut c).advance := by
  cases h; rfl

theorem execSample_cases {c : Level} (h : execSample c s = .next t) :
    t = ((s.clkOut c).shiftIn (s.clkOut c).dataIn).advance := by
  cases h; rfl

theorem execPush_cases {c : Level} (h : execPush c s = .next t) :
    (s.fifo.length = s.cfg.fifoDepth ∧ t = s.clkOut c)
      ∨ (s.fifo.length ≠ s.cfg.fifoDepth ∧ t = ((s.clkOut c).fifoPush s.sr).advance) := by
  simp only [execPush, State.fifoFull, beq_iff_eq] at h
  split at h <;> cases h <;> simp_all

/-! ### What a step can do -/

theorem mapNext_eq_next {f : State → State} {r : Result} : mapNext f r = .next t ↔ ∃ u, r = .next u ∧ t = f u := by
  cases r <;> simp [mapNext, eq_comm]

theorem step_of_rst (h : s.rstNow = true) : step s = .next (resetTick s) := by simp [step, h]

theorem step_of_idle (h : s.rstNow = false) (he : s.en = false) : step s = .next (idleTick s) := by simp [step, h, he]

theorem step_of_fetch {i : Instr} (h : s.rstNow = false) (he : s.en = true) (hf : fetch s = .ok i) :
    step s = mapNext State.endTick (exec i (hostPhase s)) := by simp [step, h, he, hf]

theorem step_of_outside {r : Refusal} (h : s.rstNow = false) (he : s.en = true) (hf : fetch s = .error r) :
    step s = .refused r := by simp [step, h, he, hf]

/-- Everything a step with a next state can have been: a reset tick, an idle tick, or one of the four micro-operations at the state after the host
phase, the tick's end after it. -/
theorem step_cases (h : step s = .next t) :
    (s.rstNow = true ∧ t = resetTick s)
      ∨ (s.rstNow = false ∧ s.en = false ∧ t = idleTick s)
      ∨ (s.rstNow = false ∧ s.en = true ∧ ∃ w u, s.cfg.uprog[s.upc.toNat]? = some w
          ∧ exec (decode w) (hostPhase s) = .next u ∧ t = u.endTick) := by
  cases hr : s.rstNow with
  | true => rw [step_of_rst hr] at h; cases h; simp
  | false =>
    cases he : s.en with
    | false => rw [step_of_idle hr he] at h; cases h; simp
    | true =>
      cases hf : fetch s with
      | error r => rw [step_of_outside hr he hf] at h; cases h
      | ok i =>
        rw [step_of_fetch hr he hf, mapNext_eq_next] at h
        obtain ⟨w, hw, rfl⟩ := fetch_eq_ok.1 hf
        obtain ⟨u, hu, rfl⟩ := h
        exact .inr (.inr ⟨rfl, rfl, w, u, hw, hu, rfl⟩)

/-- The four running cases of a step, by micro-operation, with the state after it written out over the shared operations. -/
theorem step_running_cases (hr : s.rstNow = false) (he : s.en = true) (h : step s = .next t) :
    ∃ w c, s.cfg.uprog[s.upc.toNat]? = some w ∧ c = Entry.clk w
      ∧ ((decode w = .wait c ∧ ((hostPhase s).clkOut c).dataIn = 1#1 ∧ t = ((hostPhase s).clkOut c).endTick)
        ∨ (decode w = .wait c ∧ ((hostPhase s).clkOut c).dataIn ≠ 1#1 ∧ t = ((hostPhase s).clkOut c).advance.endTick)
        ∨ (decode w = .hold c ∧ t = ((hostPhase s).clkOut c).advance.endTick)
        ∨ (decode w = .sample c
            ∧ t = (((hostPhase s).clkOut c).shiftIn ((hostPhase s).clkOut c).dataIn).advance.endTick)
        ∨ (decode w = .push c ∧ (hostPhase s).fifo.length = s.cfg.fifoDepth ∧ t = ((hostPhase s).clkOut c).endTick)
        ∨ (decode w = .push c ∧ (hostPhase s).fifo.length ≠ s.cfg.fifoDepth
            ∧ t = (((hostPhase s).clkOut c).fifoPush s.sr).advance.endTick)) := by
  obtain ⟨hr', -⟩ | ⟨-, he', -⟩ | ⟨-, -, w, u, hw, hu, rfl⟩ := step_cases h
  · simp [hr] at hr'
  · simp [he] at he'
  · refine ⟨w, _, hw, rfl, ?_⟩
    obtain hd | hd | hd | hd := decode_clk w <;> rw [hd] at hu <;> simp only [exec] at hu
    · obtain ⟨h1, rfl⟩ | ⟨h1, rfl⟩ := execWait_cases hu
      · exact .inl ⟨hd, h1, rfl⟩
      · exact .inr (.inl ⟨hd, h1, rfl⟩)
    · exact .inr (.inr (.inl ⟨hd, by rw [execHold_cases hu]⟩))
    · exact .inr (.inr (.inr (.inl ⟨hd, by rw [execSample_cases hu]⟩)))
    · obtain ⟨h1, rfl⟩ | ⟨h1, rfl⟩ := execPush_cases hu
      · exact .inr (.inr (.inr (.inr (.inl ⟨hd, by simpa using h1, rfl⟩))))
      · exact .inr (.inr (.inr (.inr (.inr ⟨hd, by simpa using h1, by simp⟩))))

/-! ### Runs of ticks -/

@[simp] theorem ticks_zero (s : State) : ticks 0 s = .next s := rfl

theorem ticks_succ_of_step {k : Nat} (h : step s = .next t) : ticks (k + 1) s = ticks k t := by
  rw [ticks, h]

theorem ticks_succ_eq_next {k : Nat} {u : State} :
    ticks (k + 1) s = .next u ↔ ∃ t, step s = .next t ∧ ticks k t = .next u := by
  rw [ticks]
  cases step s <;> simp

theorem run_succ_of_next {M : Host.Core} {k : Nat} {x y : M.State} (h : M.step x = .next y) : M.run (k + 1) x = M.run k y := by
  rw [Host.Core.run.eq_2, h]

theorem run_succ_of_refused {M : Host.Core} {k : Nat} {x : M.State} {r : M.Refusal} (h : M.step x = .refused r) :
    M.run (k + 1) x = .refused r := by
  rw [Host.Core.run.eq_2, h]

/-- The runs claims speak of are the host's runs of this machine. -/
theorem ticks_eq_run (k : Nat) (s : State) : ticks k s = Host.Core.run Sys2Proof.core k s := by
  induction k generalizing s with
  | zero => rfl
  | succ k ih =>
    cases h : step s with
    | next t => rw [ticks_succ_of_step h, ih t]; exact (run_succ_of_next (M := Sys2Proof.core) h).symm
    | fault r => nomatch r
    | refused r => rw [ticks, h]; exact (run_succ_of_refused (M := Sys2Proof.core) h).symm

/-- A run of `a + b` ticks is a run of `a` and then one of `b`. -/
theorem ticks_add {a b : Nat} (h : ticks a s = .next t) : ticks (a + b) s = ticks b t := by
  induction a generalizing s with
  | zero => cases h; simp
  | succ a ih =>
    obtain ⟨u, hu, hr⟩ := ticks_succ_eq_next.1 h
    rw [Nat.add_right_comm, ticks_succ_of_step hu, ih hr]

theorem visited_succ_of_step {k : Nat} (h : step s = .next t) : visited (k + 1) s = s :: visited k t := by
  simp [visited, h]

/-! ### A listed tick of each micro-operation -/

/-- A listed tick of a running engine on HOLD. -/
theorem step_hold {c : Level} (h : s.inputs = i :: rest) (hr : i.rst = false) (he : s.en = true) (hf : fetch s = .ok (.hold c)) :
    step s = .next ((hostPhase s).clkOut c).advance.endTick := by
  rw [step_of_fetch ((State.rstNow_of_inputs h).trans hr) he hf]; rfl

/-- A listed tick of a running engine on SAMPLE. -/
theorem step_sample {c : Level} (h : s.inputs = i :: rest) (hr : i.rst = false) (he : s.en = true)
    (hf : fetch s = .ok (.sample c)) :
    step s = .next (((hostPhase s).clkOut c).shiftIn i.data).advance.endTick := by
  have hd : ((hostPhase s).clkOut c).dataIn = i.data := State.dataIn_of_inputs (rest := rest) (by simpa using h)
  rw [step_of_fetch ((State.rstNow_of_inputs h).trans hr) he hf]
  simp only [exec, execSample, hd]; rfl

/-- A listed tick of a running engine on WAIT with the data line high. -/
theorem step_wait_stall {c : Level} (h : s.inputs = i :: rest) (hr : i.rst = false) (he : s.en = true)
    (hf : fetch s = .ok (.wait c)) (hd : i.data = 1#1) : step s = .next ((hostPhase s).clkOut c).endTick := by
  have hd : ((hostPhase s).clkOut c).dataIn = 1#1 := (State.dataIn_of_inputs (rest := rest) (by simpa using h)).trans hd
  rw [step_of_fetch ((State.rstNow_of_inputs h).trans hr) he hf]
  simp [exec, execWait, hd, mapNext]

/-- A listed tick of a running engine on WAIT with the data line low. -/
theorem step_wait_pass {c : Level} (h : s.inputs = i :: rest) (hr : i.rst = false) (he : s.en = true)
    (hf : fetch s = .ok (.wait c)) (hd : i.data = 0#1) : step s = .next ((hostPhase s).clkOut c).advance.endTick := by
  have hd : ((hostPhase s).clkOut c).dataIn = 0#1 := (State.dataIn_of_inputs (rest := rest) (by simpa using h)).trans hd
  rw [step_of_fetch ((State.rstNow_of_inputs h).trans hr) he hf]
  simp [exec, execWait, hd, mapNext]

/-- A listed tick of a running engine on PUSH, the queue full after the host phase. -/
theorem step_push_stall {c : Level} (h : s.inputs = i :: rest) (hr : i.rst = false) (he : s.en = true)
    (hf : fetch s = .ok (.push c)) (hq : (hostPhase s).fifo.length = s.cfg.fifoDepth) :
    step s = .next ((hostPhase s).clkOut c).endTick := by
  rw [step_of_fetch ((State.rstNow_of_inputs h).trans hr) he hf]
  simp only [exec, execPush, State.fifoFull, hostPhase_cfg, hq, beq_self_eq_true, if_true, mapNext]

/-- A listed tick of a running engine on PUSH, with room in the queue after the host phase. -/
theorem step_push_room {c : Level} (h : s.inputs = i :: rest) (hr : i.rst = false) (he : s.en = true)
    (hf : fetch s = .ok (.push c)) (hq : (hostPhase s).fifo.length ≠ s.cfg.fifoDepth) :
    step s = .next (((hostPhase s).clkOut c).fifoPush s.sr).advance.endTick := by
  rw [step_of_fetch ((State.rstNow_of_inputs h).trans hr) he hf]
  simp only [exec, execPush, State.fifoFull, hostPhase_cfg, beq_eq_false_iff_ne.2 hq, Bool.false_eq_true, if_false, mapNext,
    hostPhase_sr]

end

end Sys2Proof.Machine
end

