-- ==== Sys2Proof/Laws/Safety.lean ====
section
/-! SUPPORT. The small lemmas of the terms claims are stated in. -/

namespace Sys2Proof

theorem ProtocolConfig.wf_iff (c : ProtocolConfig) :
    c.wf = true ↔ 1 ≤ c.uprog.length ∧ c.uprog.length ≤ 128 ∧ 1 ≤ c.fifoDepth := by
  simp only [ProtocolConfig.wf, Bool.and_eq_true, decide_eq_true_eq, and_assoc]
  exact Iff.rfl

theorem programWf_iff (p : List Instr) :
    programWf p = true ↔ 1 ≤ p.length ∧ p.length ≤ 128 ∧ ∀ i ∈ p, i.isMicroOp = true := by
  simp only [programWf, Bool.and_eq_true, decide_eq_true_eq, and_assoc, List.all_eq_true]
  exact Iff.rfl

/-- What `pinsExclusive` says: no two engines have a pin in common. -/
theorem pinsExclusive_iff (cs : List ProtocolConfig) :
    pinsExclusive cs = true ↔ cs.Pairwise fun a b => a.clockPin ≠ b.clockPin ∧ a.clockPin ≠ b.dataPin
      ∧ a.dataPin ≠ b.clockPin ∧ a.dataPin ≠ b.dataPin := by
  induction cs with
  | nil => simp [pinsExclusive]
  | cons c cs ih =>
    simp [pinsExclusive, ih, ProtocolConfig.sharesPin, and_assoc]

namespace Machine

/-- A run of `k` ticks puts `k` levels in front of the clock's history. -/
theorem ticks_clkHistory {k : Nat} {s t : State} (h : ticks k s = .next t) :
    ∃ l, l.length = k ∧ t.clkHistory = l ++ s.clkHistory := by
  induction k generalizing s with
  | zero => cases h; exact ⟨[], rfl, rfl⟩
  | succ k ih =>
    obtain ⟨u, hu, hr⟩ := ticks_succ_eq_next.1 h
    obtain ⟨l, hl, ht⟩ := ih hr
    have hc : ∃ b, u.clkHistory = b :: s.clkHistory := by
      obtain ⟨-, rfl⟩ | ⟨-, -, rfl⟩ | ⟨hr, he, -⟩ := step_cases hu
      · exact ⟨_, rfl⟩
      · exact ⟨0#1, by simp [idleTick]⟩
      · obtain ⟨w, c, -, -, ⟨-, -, rfl⟩ | ⟨-, -, rfl⟩ | ⟨-, rfl⟩ | ⟨-, rfl⟩ | ⟨-, -, rfl⟩ | ⟨-, -, rfl⟩⟩ :=
          step_running_cases hr he hu <;> exact ⟨c, by simp⟩
    obtain ⟨b, hb⟩ := hc
    exact ⟨l ++ [b], by simp [hl], by rw [ht, hb]; simp⟩

theorem adcContract_of_rising {v : BitVec 24} {edges : Nat} {x : AdcTick} {rest : List AdcTick} (hc : x.clk = 1#1) (he : edges < 25) :
    adcContract v 0#1 edges (x :: rest) = adcContract v 1#1 (edges + 1) rest := by
  simp [adcContract, hc, he]

theorem adcContract_of_not_rising {v : BitVec 24} {before : Level} {edges : Nat} {x : AdcTick} {rest : List AdcTick}
    (h : ¬(before = 0#1 ∧ x.clk = 1#1)) :
    adcContract v before edges (x :: rest) = (x.agrees v before edges && adcContract v x.clk edges rest) := by
  rw [adcContract, if_neg h]

/-- A contract over a run of ticks holds of what comes after a first part, from the level and the count of edges that part ends with. -/
theorem adcContract_append {v : BitVec 24} (l rest : List AdcTick) (before : Level) (edges : Nat)
    (he : edges + risingEdges before (l.map AdcTick.clk) ≤ 25) (h : adcContract v before edges (l ++ rest) = true) :
    adcContract v before edges l = true
      ∧ adcContract v ((l.map AdcTick.clk).getLastD before) (edges + risingEdges before (l.map AdcTick.clk)) rest = true := by
  induction l generalizing before edges with
  | nil => exact ⟨rfl, h⟩
  | cons x l ih =>
    simp only [List.map_cons, risingEdges, List.cons_append, List.getLastD_cons] at he h ⊢
    by_cases hr : before = 0#1 ∧ x.clk = 1#1
    · rw [if_pos hr] at he ⊢
      obtain ⟨rfl, hx⟩ := hr
      rw [adcContract_of_rising hx (by omega)] at h ⊢
      obtain ⟨h1, h2⟩ := ih 1#1 (edges + 1) (by rw [hx] at he; omega) h
      rw [hx]
      exact ⟨h1, by rw [← Nat.add_assoc]; exact h2⟩
    · rw [if_neg hr] at he ⊢
      rw [adcContract_of_not_rising hr, Bool.and_eq_true] at h ⊢
      obtain ⟨h1, h2⟩ := ih x.clk edges (by omega) h.2
      exact ⟨⟨h.1, h1⟩, by rw [Nat.zero_add]; exact h2⟩

theorem highRun_cons (c : Level) (l : List Level) : highRun (c :: l) = if c = 1#1 then highRun l + 1 else 0 := by
  simp only [highRun, List.takeWhile_cons]
  by_cases h : c = 1#1 <;> simp [h]

/-- A level in front of a history without three highs in a row keeps it so, if it is low or the run it lengthens is at most 1. -/
theorem noThreeHighs_cons {c : Level} {l : List Level} (h : noThreeHighs l = true) (hc : c = 1#1 → highRun l ≤ 1) :
    noThreeHighs (c :: l) = true := by
  match l, h with
  | [], _ => rfl
  | [_], _ => rfl
  | a :: b :: r, h =>
    simp only [noThreeHighs, h, Bool.and_true]
    by_cases hc1 : c = 1#1
    · have := hc hc1
      simp only [highRun_cons] at this
      by_cases ha : a = 1#1 <;> by_cases hb : b = 1#1 <;> simp_all
    · simp [hc1]

/-- A tick leaves the configuration as it is. -/
theorem step_cfg {s t : State} (h : step s = .next t) : t.cfg = s.cfg := by
  obtain ⟨-, rfl⟩ | ⟨-, -, rfl⟩ | ⟨hr, he, -⟩ := step_cases h
  · simp [resetTick]
  · simp [idleTick]
  · obtain ⟨w, c, -, -, ⟨-, -, rfl⟩ | ⟨-, -, rfl⟩ | ⟨-, rfl⟩ | ⟨-, rfl⟩ | ⟨-, -, rfl⟩ | ⟨-, -, rfl⟩⟩ :=
      step_running_cases hr he h <;> simp

/-- The `op` field a decoding shows. -/
theorem op_of_decode (w : Entry) (c : Level) :
    (decode w = .wait c → Entry.op w = 0#2) ∧ (decode w = .hold c → Entry.op w = 1#2)
      ∧ (decode w = .sample c → Entry.op w = 2#2) ∧ (decode w = .push c → Entry.op w = 3#2) := by
  revert w c; decide

/-- The levels below the next address: that of this one in front. -/
theorem referenceLevelsBelow_succ {a : Nat} {w : Entry} (h : referenceUprog[a]? = some w) :
    referenceLevelsBelow (a + 1) = Entry.clk w :: referenceLevelsBelow a := by
  unfold referenceLevelsBelow
  simp [List.take_add_one, h]

/-- The queue operations keep the bound: a POP never lengthens the queue. -/
theorem hostPhase_fifo_length_le (s : State) : (hostPhase s).fifo.length ≤ s.fifo.length := by
  rw [hostPhase_fifo]
  split <;> simp

end Machine

end Sys2Proof
end

