-- ==== Sys2Proof/Laws/Cycle.lean ====
section
/-! SUPPORT. Runs of the reference program with listed inputs: the waiting ticks, and the ticks of the frame, which pass straight on. -/

namespace Sys2Proof.Machine

/-- The bits a run of listed ticks from address `a` of the reference program samples, first first. -/
def sampledFrom : Nat → List TickInput → List Level
  | _, [] => []
  | a, i :: l => if (referenceUprog[a]?.map Entry.op) = some 2#2 then i.data :: sampledFrom (a + 1) l else sampledFrom (a + 1) l

/-- The clock levels of `n` addresses of the reference program from address `a`, newest first. -/
def levelsFrom (a n : Nat) : List Level :=
  (((referenceUprog.drop a).take n).map Entry.clk).reverse

theorem levelsFrom_succ {a n : Nat} {w : Entry} (h : referenceUprog[a]? = some w) :
    levelsFrom a (n + 1) = levelsFrom (a + 1) n ++ [Entry.clk w] := by
  obtain ⟨ha, hw⟩ := List.getElem?_eq_some_iff.1 h
  unfold levelsFrom
  rw [List.drop_eq_getElem_cons ha, List.take_succ_cons, List.map_cons, List.reverse_cons, hw]

/-- Between addresses 1 and 81 the reference program only holds and samples. -/
theorem reference_entry_inside : ∀ a : Fin 82, 1 ≤ a.val → ∃ w, referenceUprog[a.val]? = some w
    ∧ ((decode w = .hold (Entry.clk w) ∧ Entry.op w ≠ 2#2) ∨ (decode w = .sample (Entry.clk w) ∧ Entry.op w = 2#2)) := by
  decide

theorem nextUpc_reference_inside {s : State} (hp : s.cfg.uprog = referenceUprog) (h : s.upc.toNat ≤ 81) :
    (nextUpc s).toNat = s.upc.toNat + 1 := by
  have hn : nextUpc s = if s.upc.toNat + 1 = 83 then 0#7 else s.upc + 1#7 := by unfold nextUpc; rw [hp]; rfl
  have h1 : (1#7).toNat = 1 := rfl
  rw [hn, if_neg (by omega), BitVec.toNat_add]
  omega

/-- A run of listed ticks inside the frame: one address a tick, the sampled bits shifted in, the clock as the program has it. -/
theorem ticks_frame {rest : List TickInput} (l : List TickInput) (s : State) (hp : s.cfg.uprog = referenceUprog) (he : s.en = true)
    (h1 : 1 ≤ s.upc.toNat) (h2 : s.upc.toNat + l.length ≤ 82) (hi : s.inputs = l ++ rest) (hr : ∀ i ∈ l, i.rst = false) :
    ∃ t, ticks l.length s = .next t ∧ t.upc.toNat = s.upc.toNat + l.length ∧ t.en = true ∧ t.cfg = s.cfg ∧ t.inputs = rest
      ∧ t.sr = (sampledFrom s.upc.toNat l).foldl shiftInsert s.sr
      ∧ t.clkHistory = levelsFrom s.upc.toNat l.length ++ s.clkHistory
      ∧ ((∀ i ∈ l, i.pop = false) → t.fifo = s.fifo) := by
  induction l generalizing s with
  | nil => exact ⟨s, rfl, rfl, he, rfl, by simpa using hi, rfl, by simp [levelsFrom], fun _ => rfl⟩
  | cons i l ih =>
    simp only [List.length_cons] at h2
    have hn := nextUpc_reference_inside hp (by omega)
    obtain ⟨w, hw, ⟨hd, ho⟩ | ⟨hd, ho⟩⟩ := reference_entry_inside ⟨s.upc.toNat, by omega⟩ h1
    · have hs := step_hold (rest := l ++ rest) hi (hr i (by simp)) he (fetch_eq_ok.2 ⟨w, by rw [hp]; exact hw, hd⟩)
      obtain ⟨t, ht, h3, h4, h5, h6, h7, h8, h9⟩ := ih ((hostPhase s).clkOut (Entry.clk w)).advance.endTick
        (by simpa using hp) (by simp [he]) (by simp [hn]) (by simp [hn]; omega) (by simp [hi]) (fun j hj => hr j (by simp [hj]))
      refine ⟨t, by rw [List.length_cons, ticks_succ_of_step hs]; exact ht, ?_, h4, by simpa using h5, h6, ?_, ?_, ?_⟩
      · rw [h3]; simp [hn]; omega
      · rw [h7]; simp [hn, sampledFrom, hw, ho]
      · rw [h8, List.length_cons, levelsFrom_succ hw]; simp [hn]
      · intro hq
        rw [h9 fun j hj => hq j (by simp [hj])]
        simp [State.popNow_of_inputs hi, hq i (by simp)]
    · have hs := step_sample (rest := l ++ rest) hi (hr i (by simp)) he (fetch_eq_ok.2 ⟨w, by rw [hp]; exact hw, hd⟩)
      obtain ⟨t, ht, h3, h4, h5, h6, h7, h8, h9⟩ := ih (((hostPhase s).clkOut (Entry.clk w)).shiftIn i.data).advance.endTick
        (by simpa using hp) (by simp [he]) (by simp [hn]) (by simp [hn]; omega) (by simp [hi]) (fun j hj => hr j (by simp [hj]))
      refine ⟨t, by rw [List.length_cons, ticks_succ_of_step hs]; exact ht, ?_, h4, by simpa using h5, h6, ?_, ?_, ?_⟩
      · rw [h3]; simp [hn]; omega
      · rw [h7]; simp [hn, sampledFrom, hw, ho]
      · rw [h8, List.length_cons, levelsFrom_succ hw]; simp [hn]
      · intro hq
        rw [h9 fun j hj => hq j (by simp [hj])]
        simp [State.popNow_of_inputs hi, hq i (by simp)]

/-- A bit of a word made by shifting in a list of bits: the last bit is bit 0. -/
theorem getLsbD_foldl_shiftInsert (bits : List Level) (x : Word) (i : Nat) (hi : i < 32) :
    (bits.foldl shiftInsert x).getLsbD i
      = if i < bits.length then (bits[bits.length - 1 - i]?.getD 0#1).getLsbD 0 else x.getLsbD (i - bits.length) := by
  induction bits generalizing x with
  | nil => simp
  | cons d bits ih =>
    rw [List.foldl_cons, ih, List.length_cons]
    by_cases h : i < bits.length
    · rw [if_pos h, if_pos (by omega), show bits.length + 1 - 1 - i = (bits.length - 1 - i) + 1 by omega, List.getElem?_cons_succ]
    · rw [if_neg h]
      unfold shiftInsert
      rw [BitVec.getLsbD_append]
      by_cases h0 : i = bits.length
      · subst h0; simp
      · rw [if_neg (by omega), if_neg (by omega), BitVec.getLsbD_extractLsb', show i - (bits.length + 1) = i - bits.length - 1 by omega]
        simp; omega

/-- The waiting ticks at address 0 of the reference program, the data line high in each: they drain the queue by the host's POPs and do nothing else. -/
theorem ticks_waiting {rest : List TickInput} (l : List TickInput) (s : State) (hp : s.cfg.uprog = referenceUprog) (he : s.en = true)
    (hu : s.upc = 0#7) (hi : s.inputs = l ++ rest) (hr : ∀ i ∈ l, i.rst = false ∧ i.data = 1#1) :
    ∃ t, ticks l.length s = .next t ∧ t.upc = 0#7 ∧ t.en = true ∧ t.cfg = s.cfg ∧ t.sr = s.sr ∧ t.inputs = rest
      ∧ t.clkHistory = List.replicate l.length 0#1 ++ s.clkHistory ∧ t.fifo.length ≤ s.fifo.length
      ∧ ((∀ i ∈ l, i.pop = false) → t.fifo = s.fifo) := by
  induction l generalizing s with
  | nil => exact ⟨s, rfl, hu, he, rfl, rfl, by simpa using hi, by simp, le_refl _, fun _ => rfl⟩
  | cons i l ih =>
    have hs := step_wait_stall (c := 0#1) (rest := l ++ rest) hi (hr i (by simp)).1 he
      (fetch_eq_ok.2 ⟨0, by rw [hp, hu]; rfl, rfl⟩) (hr i (by simp)).2
    obtain ⟨t, ht, h1, h2, h3, h4, h5, h6, h7, h8⟩ := ih ((hostPhase s).clkOut 0#1).endTick (by simp [hp]) (by simp [he]) (by simp [hu])
      (by simp [hi]) (fun j hj => hr j (by simp [hj]))
    refine ⟨t, by rw [List.length_cons, ticks_succ_of_step hs]; exact ht, h1, h2, by simpa using h3, by simpa using h4, h5, ?_, ?_, ?_⟩
    · rw [h6]; simp [List.replicate_succ', List.append_assoc]
    · exact le_trans h7 (hostPhase_fifo_length_le s)
    · intro hq
      rw [h8 fun j hj => hq j (by simp [hj])]
      simp [State.popNow_of_inputs hi, hq i (by simp)]

end Sys2Proof.Machine
end

