-- ==== Sys2Proof/Laws/PerInstr.lean ====
section
/-! SUPPORT. Statements made per operation, about the operation as syntax. -/

namespace Sys2Proof.Laws.OneEntry

/-- A micro-operation is written as one entry, which decodes to it; a host request as none (R45, R46, R85, R86). -/
def Statement (i : Instr) : Prop :=
  disassemble (encode i) = if i.isMicroOp then [i] else []

theorem wait : ∀ c : Level, Statement (.wait c) := by unfold Statement; decide
theorem hold : ∀ c : Level, Statement (.hold c) := by unfold Statement; decide
theorem sample : ∀ c : Level, Statement (.sample c) := by unfold Statement; decide
theorem push : ∀ c : Level, Statement (.push c) := by unfold Statement; decide
theorem start : Statement .start := rfl
theorem pop : Statement .pop := rfl

end Sys2Proof.Laws.OneEntry
end

