-- ==== Sys2Proof/Tests/Slice0.lean ====
section
/-! SUPPORT. Tests: ill-formed terms are refused; words written out from the encoding tables decode to what they stand for; one tick of each
operation against spec/95_test_vectors.md; and for each statement with hypotheses, a state and operands that meet them. -/

namespace Sys2Proof.Tests

open Sys2Proof.Machine

/-! ## Ill-formed terms -/

theorem test_wf_accepts_a_program : programWf [.wait 0, .hold 1, .push 1] = true := by decide
theorem test_wf_refuses_the_empty_program : programWf [] = false := by decide
theorem test_wf_refuses_129_entries : programWf (List.replicate 129 (.hold 0)) = false := by simp [programWf, Config.maxProgramLength]
theorem test_wf_accepts_128_entries : programWf (List.replicate 128 (.hold 0)) = true := by simp [programWf, Config.maxProgramLength, Instr.isMicroOp]
theorem test_wf_refuses_start_in_a_program : programWf [.wait 0, .start] = false := by decide
theorem test_wf_refuses_pop_in_a_program : programWf [.pop, .wait 0] = false := by decide

/-- A small configuration: the reference program, a queue of depth `d`, pins 2p and 2p+1. -/
def config (d p : Nat) : ProtocolConfig where
  clockPin := 2 * p
  dataPin := 2 * p + 1
  engineId := p
  tickHz := 2000000
  uprog := referenceUprog
  fifoDepth := d

theorem test_wf_accepts_depth_1 : (config 1 0).wf = true := by decide
theorem test_wf_refuses_depth_0 : (config 0 0).wf = false := by decide
theorem test_wf_refuses_an_empty_rom : ProtocolConfig.wf { config 1 0 with uprog := [] } = false := by decide
theorem test_wf_refuses_a_long_rom : ProtocolConfig.wf { config 1 0 with uprog := List.replicate 129 1 } = false := by
  simp [ProtocolConfig.wf, Config.maxProgramLength]
theorem test_wf_refuses_shared_pins :
    pinsExclusive [config 1 0, config 1 1] = true ∧ pinsExclusive [config 1 0, config 2 1, config 4 0] = false := by decide
theorem test_wf_refuses_each_way_of_sharing_a_pin :
    pinsExclusive [config 1 0, { config 1 1 with clockPin := 0 }] = false
      ∧ pinsExclusive [config 1 0, { config 1 1 with dataPin := 0 }] = false
      ∧ pinsExclusive [config 1 0, { config 1 1 with clockPin := 1 }] = false
      ∧ pinsExclusive [config 1 0, { config 1 1 with dataPin := 1 }] = false := by decide

/-! ## Encodings, bit by bit from 30_encoding.md R45 and R48: `clk` in bit 2, `op` in bits 1..0 -/

theorem test_decode_wait_words : decodeWord 0b000 = .ok (.wait 0) ∧ decodeWord 0b100 = .ok (.wait 1) := by decide
theorem test_decode_hold_words : decodeWord 0b001 = .ok (.hold 0) ∧ decodeWord 0b101 = .ok (.hold 1) := by decide
theorem test_decode_sample_words : decodeWord 0b010 = .ok (.sample 0) ∧ decodeWord 0b110 = .ok (.sample 1) := by decide
theorem test_decode_push_words : decodeWord 0b011 = .ok (.push 0) ∧ decodeWord 0b111 = .ok (.push 1) := by decide
theorem test_decode_refuses_four_bits : decodeWord 0b1000 = .error .entryTooWide := by decide
theorem test_host_requests_have_no_word :
    encode .start = [] ∧ encode .pop = [] ∧ decodeTableWord 0 0 = none ∧ decodeTableWord 8 2 = some (.sample 0) := by decide
/-- P2 of 95_test_vectors.md: the listing of 17 entries and its encoding. -/
theorem test_listing_of_P2 :
    assemble (expandListing [.op (.wait 0), .pulse, .ext 3, .bit, .bit, .bit, .op (.hold 1), .op (.push 0)])
      = [0, 5, 1, 2, 2, 2, 5, 6, 1, 5, 6, 1, 5, 6, 1, 5, 3] := by decide
theorem test_constants : Config.wordBits = 32 ∧ Config.frameBits + Config.gainPulses = 25 := by decide
theorem test_text : (Instr.sample 1).text = "SAMPLE 1" ∧ (Instr.wait 0).text = "WAIT 0" ∧ Instr.pop.text = "POP" := by decide

/-! ## One tick, against 95_test_vectors.md section 3 -/

/-- The inputs of a tick in which only the data line has a say. -/
def quiet (d : Level) : TickInput := { rst := false, start := false, pop := false, data := d }

/-- A running engine with the reference program, a queue of depth 1, and one listed tick. -/
def running (upc : Upc) (clk : Level) (sr : Word) (fifo : List Word) (i : TickInput) : State :=
  { en := true, upc, clk, sr, fifo, cfg := config 1 0, inputs := [i], clkHistory := [clk], delivered := none }

/-- An engine as reset leaves it, with one listed tick. -/
def idling (i : TickInput) : State :=
  { en := false, upc := 0, clk := 0, sr := 0, fifo := [], cfg := config 1 0, inputs := [i], clkHistory := [], delivered := none }

/-- What `f` shows of the state after one step. -/
def after {α : Type} (s : State) (f : State → α) : Option α :=
  match step s with
  | .next t => some (f t)
  | .fault _ => none
  | .refused _ => none

/-- V2. -/
theorem test_wait_passes :
    after (running 0 0 0 [] (quiet 0)) (fun t => (t.upc, t.clk, t.sr, t.fifo)) = some (1, 0, 0, []) := by decide
/-- V3: `WAIT 1` drives the clock although it stalls. -/
theorem test_wait_stalls_and_drives_the_clock :
    after { running 0 0 0 [] (quiet 1) with cfg := { config 1 0 with uprog := [4, 1] } } (fun t => (t.upc, t.clk)) = some (0, 1) := by
  decide
/-- V4. -/
theorem test_hold_rising_edge : after (running 1 0 0 [] (quiet 1)) (fun t => (t.upc, t.clk)) = some (2, 1) := by decide
/-- V5: HOLD at the last address wraps. -/
theorem test_hold_wraps :
    after { running 2 1 0 [] (quiet 1) with cfg := { config 1 0 with uprog := [0, 5, 1] } } (fun t => (t.upc, t.clk)) = some (0, 0) := by
  decide
/-- V7. -/
theorem test_sample_shifts_in_a_one :
    after (running 79 1 0x7FD5E6F7 [] (quiet 1)) (fun t => (t.sr, t.upc, t.clk)) = some (0xFFABCDEF, 80, 1) := by decide
/-- V8. -/
theorem test_sample_discards_bit_31 :
    after (running 3 0 0x80000000 [] (quiet 0)) (fun t => (t.sr, t.upc)) = some (0, 4) := by decide
/-- V10. -/
theorem test_push_with_room :
    after (running 82 1 0xFFABCDEF [] (quiet 1)) (fun t => (t.fifo, t.upc, t.sr, t.clk)) = some ([0xFFABCDEF], 0, 0xFFABCDEF, 0) := by
  decide
/-- V11. -/
theorem test_push_on_a_full_queue :
    after (running 82 0 2 [1] (quiet 0)) (fun t => (t.fifo, t.upc, t.sr, t.clk)) = some ([1], 82, 2, 0) := by decide
/-- V12: the POP frees the place for the PUSH of its tick. -/
theorem test_pop_on_a_full_queue :
    after (running 82 0 2 [1] { quiet 0 with pop := true }) (fun t => (t.delivered, t.fifo, t.upc)) = some (some 1, [2], 0) := by decide
/-- V13: POP on an empty queue, the engine at address 40. -/
theorem test_pop_on_an_empty_queue :
    after (running 40 1 0 [] { quiet 1 with pop := true }) (fun t => (t.delivered, t.fifo, t.sr, t.clk)) = some (none, [], 1, 1) := by
  decide
/-- V15: idle, the line low, and nothing happens. -/
theorem test_idle_tick :
    after (idling (quiet 0)) (fun t => (t.en, t.upc, t.clk, t.sr, t.fifo)) = some (false, 0, 0, 0, []) := by decide
/-- V16, the tick of START. -/
theorem test_start_is_effective_from_the_next_tick :
    after (idling { quiet 0 with start := true }) (fun t => (t.en, t.upc, t.clk)) = some (true, 0, 0) := by decide
/-- V17: reset has priority over START, POP and the micro-operation. -/
theorem test_reset_has_priority :
    after (running 40 1 0x0007FD5E [0x000003E8] { rst := true, start := true, pop := true, data := 1 })
        (fun t => ((t.en, t.upc, t.clk), t.sr, t.fifo, t.delivered)) = some ((false, 0, 0), 0, [], none) := by decide
/-- U5: a fetch outside the program refuses. -/
theorem test_fetch_outside_refuses : step (running 83 0 0 [] (quiet 0)) = .refused .fetchOutsideUprog := rfl
/-- The table's words run as the first instruction after reset. -/
theorem test_table_words_run_after_reset :
    after (State.reset.withFetchWord 8 0) (fun t => (t.upc, t.clk)) = some (1, 0)
      ∧ after (State.reset.withFetchWord 8 5) (fun t => (t.upc, t.clk)) = some (1, 1)
      ∧ after (State.reset.withFetchWord 8 2) (fun t => (t.upc, t.sr)) = some (1, 0)
      ∧ after (State.reset.withFetchWord 8 3) (fun t => (t.upc, t.fifo)) = some (1, [0]) := by decide

/-! ## Witnesses: states and operands that meet each statement's hypotheses -/

/-- Running ticks of every kind, without reset: the entry at `upc`, and that the step has a next state. -/
theorem test_running_ticks_have_next_states :
    (∃ t, step (running 0 0 0 [] (quiet 1)) = .next t) ∧ (∃ t, step (running 0 0 0 [] (quiet 0)) = .next t)
      ∧ (∃ t, step (running 1 0 0 [] (quiet 0)) = .next t) ∧ (∃ t, step (running 13 1 0 [] (quiet 1)) = .next t)
      ∧ (∃ t, step (running 82 1 5 [] (quiet 0)) = .next t) ∧ (∃ t, step (running 82 0 5 [7] (quiet 0)) = .next t)
      ∧ (∃ t, step (idling (quiet 0)) = .next t) ∧ (∃ t, step (running 40 0 9 [7] { quiet 0 with rst := true }) = .next t) :=
  ⟨⟨_, rfl⟩, ⟨_, rfl⟩, ⟨_, rfl⟩, ⟨_, rfl⟩, ⟨_, rfl⟩, ⟨_, rfl⟩, ⟨_, rfl⟩, ⟨_, rfl⟩⟩

theorem test_witness_EntryIsFourTimesClockPlusOperation : (Instr.push 1).isMicroOp = true := rfl
theorem test_witness_AssembledProgramDisassemblesToItself : programWf (expandListing referenceListing) = true := by decide
theorem test_witness_StartEnablesFromTheNextTick :
    (idling { quiet 0 with start := true }).rstNow = false ∧ (idling { quiet 0 with start := true }).en = false
      ∧ (idling { quiet 0 with start := true }).startNow = true ∧ (running 0 0 0 [] (quiet 0)).en = true := by decide
theorem test_witness_PopTakesTheOldestWord :
    (running 0 0 0 [0x3E8, 0x5DC] (quiet 0)).fifo = 0x3E8 :: [0x5DC] ∧ (running 0 0 0 [] (quiet 0)).fifo = [] := ⟨rfl, rfl⟩
theorem test_witness_OperationsLeaveTheRestUnchanged :
    (∃ t, exec (.wait 0) (running 0 0 0 [] (quiet 0)) = .next t) ∧ (∃ t, exec (.hold 1) (running 1 0 0 [] (quiet 0)) = .next t)
      ∧ (∃ t, exec (.sample 1) (running 13 1 0 [] (quiet 0)) = .next t) ∧ (∃ t, exec (.push 0) (running 82 1 0 [] (quiet 0)) = .next t)
      ∧ (∃ t, exec .start (idling (quiet 0)) = .next t) ∧ ∃ t, exec .pop (running 0 0 0 [1] (quiet 0)) = .next t :=
  ⟨⟨_, rfl⟩, ⟨_, rfl⟩, ⟨_, rfl⟩, ⟨_, rfl⟩, ⟨_, rfl⟩, ⟨_, rfl⟩⟩
theorem test_witness_ResetTickClearsTheEngine : (running 40 1 9 [7] { quiet 0 with rst := true }).rstNow = true := rfl
theorem test_witness_IdleTickOnlyAppliesHostRequests : (idling (quiet 0)).rstNow = false ∧ (idling (quiet 0)).en = false := ⟨rfl, rfl⟩
theorem test_witness_EveryTickRecordsItsClockLevel : ∃ t, step (running 1 0 0 [] (quiet 0)) = .next t ∧ t.clkHistory = [1, 0] :=
  ⟨_, rfl, rfl⟩
theorem test_witness_StepRunsTheDecodedInstruction :
    (running 82 1 0 [] (quiet 0)).rstNow = false ∧ (running 82 1 0 [] (quiet 0)).en = true
      ∧ (running 82 1 0 [] (quiet 0)).cfg.uprog[(running 82 1 0 [] (quiet 0)).upc.toNat]? = some 3 := ⟨rfl, rfl, rfl⟩
theorem test_witness_StepRefusesExactlyOutsideTheProgram :
    (running 83 0 0 [] (quiet 0)).rstNow = false ∧ (running 83 0 0 [] (quiet 0)).en = true
      ∧ (running 83 0 0 [] (quiet 0)).cfg.uprog.length ≤ (running 83 0 0 [] (quiet 0)).upc.toNat
      ∧ ∀ r, step (running 82 0 0 [] (quiet 0)) ≠ .refused r := ⟨rfl, rfl, by decide, fun _ h => nomatch h⟩
/-- Both clauses: a full queue and an empty one. -/
theorem test_witness_PopIsAppliedBeforeThePushOfItsTick :
    (let s := running 82 0 2 [1] { quiet 0 with pop := true };
      s.rstNow = false ∧ s.en = true ∧ s.popNow = true ∧ s.cfg.uprog[s.upc.toNat]? = some 3 ∧ decode 3 = .push 0
        ∧ s.fifo = 1 :: [] ∧ s.fifo.length = s.cfg.fifoDepth)
      ∧ (let s := running 82 0 2 [] { quiet 0 with pop := true };
      s.rstNow = false ∧ s.en = true ∧ s.popNow = true ∧ s.cfg.uprog[s.upc.toNat]? = some 3 ∧ decode 3 = .push 0
        ∧ s.fifo = [] ∧ 1 ≤ s.cfg.fifoDepth) := by decide
theorem test_witness_PopSucceedsExactlyWhenRxValid :
    ∃ t, step (running 0 0 0 [1] { quiet 0 with pop := true }) = .next t ∧ t.delivered = some 1 := ⟨_, rfl, rfl⟩
/-- The three clauses: reset, idle, running. -/
theorem test_witness_ClockTakesTheSideSetBit :
    (∃ t, step (running 40 1 9 [7] { quiet 0 with rst := true }) = .next t) ∧ (∃ t, step (idling (quiet 0)) = .next t)
      ∧ ∃ t, step (running 1 0 0 [] (quiet 0)) = .next t ∧ t.clk = 1 := ⟨⟨_, rfl⟩, ⟨_, rfl⟩, _, rfl, rfl⟩
/-- `next` at the first and the last address, and the entry of each clause: WAIT, PUSH, HOLD, SAMPLE. -/
theorem test_witness_UpcAdvancesUnlessWaitOrPushStalls :
    nextUpc (running 0 0 0 [] (quiet 0)) = 1 ∧ nextUpc (running 82 0 0 [] (quiet 0)) = 0
      ∧ referenceUprog[0]? = some 0 ∧ decode 0 = .wait 0 ∧ referenceUprog[82]? = some 3 ∧ decode 3 = .push 0
      ∧ referenceUprog[1]? = some 5 ∧ decode 5 = .hold 1 ∧ referenceUprog[13]? = some 6 ∧ decode 6 = .sample 1 := by decide
theorem test_witness_EnableIsSetByStartAndClearedByReset :
    ∃ t, step (idling { quiet 0 with start := true }) = .next t ∧ t.en = true := ⟨_, rfl, rfl⟩
/-- Both ways of writing `sr`. -/
theorem test_witness_SrIsWrittenOnlyBySampleAndReset :
    (∃ t, step (running 13 1 0 [] (quiet 1)) = .next t ∧ t.sr ≠ 0)
      ∧ ∃ t, step (running 13 1 9 [] { quiet 1 with rst := true }) = .next t ∧ t.sr ≠ 9 := ⟨⟨_, rfl, by decide⟩, _, rfl, by decide⟩
/-- No word is pushed by HOLD, nor by PUSH on a full queue; one is by PUSH with room. -/
theorem test_witness_SrShowsOnlyThroughPush :
    pushedNow (running 1 0 5 [] (quiet 0)) = none ∧ pushedNow (running 82 0 5 [7] (quiet 0)) = none
      ∧ pushedNow (running 82 0 5 [] (quiet 0)) = some 5 := by decide
theorem test_witness_ConfigurationIsImmutable :
    (∃ t, exec (.push 0) (running 82 1 0 [] (quiet 0)) = .next t) ∧ ∃ t, ticks 1 (running 82 1 0 [] (quiet 0)) = .next t :=
  ⟨⟨_, rfl⟩, _, rfl⟩
/-- The clauses: idle, reset, HOLD, PUSH. -/
theorem test_witness_DataLineIsIgnoredOutsideWaitAndSample :
    (idling (quiet 0)).en = false ∧ ({ quiet 0 with rst := true } : TickInput).rst = true
      ∧ (referenceUprog[(running 1 0 0 [] (quiet 0)).upc.toNat]? = some 5 ∧ decode 5 = .hold 1)
      ∧ referenceUprog[(running 82 0 0 [] (quiet 0)).upc.toNat]? = some 3 ∧ decode 3 = .push 0 := by decide
/-- Two states that differ in the model's own fields only. -/
theorem test_witness_TickDependsOnStateAndItsInputsOnly :
    let s := running 13 1 5 [7] (quiet 1);
    let t : State := { s with inputs := [quiet 1, quiet 0], clkHistory := [1, 1, 0], delivered := some 3 };
    s.inputs = quiet 1 :: [] ∧ t.inputs = quiet 1 :: [quiet 0]
      ∧ ({ s with delivered := none } : State).architectural = ({ t with delivered := none } : State).architectural ∧ s ≠ t := by decide
theorem test_witness_EachTickKeepsTheQueueInOrder :
    ∃ t, (running 82 0 2 [1] { quiet 0 with pop := true }).rstNow = false
      ∧ step (running 82 0 2 [1] { quiet 0 with pop := true }) = .next t := ⟨_, rfl, rfl⟩
/-- Two ticks: a PUSH, then a POP in a WAIT tick. -/
theorem test_witness_WordsLeaveInTheOrderTheyEntered :
    let s : State := { running 82 0 2 [] (quiet 0) with inputs := [quiet 0, { quiet 1 with pop := true }] };
    (∃ t, ticks 2 s = .next t) ∧ (∀ x ∈ visited 2 s, x.rstNow = false)
      ∧ (visited 2 s).filterMap pushedNow = [2] ∧ (visited 2 s).filterMap poppedNow = [2] := ⟨⟨_, rfl⟩, by decide, by decide, by decide⟩
/-- Two ticks without a POP: a PUSH, then a WAIT. -/
theorem test_witness_UnreadSamplesAreBoundedByTheQueue :
    let s : State := { running 82 0 2 [] (quiet 0) with inputs := [quiet 0, quiet 1] };
    s.Inv ∧ (∃ t, ticks 2 s = .next t) ∧ (∀ x ∈ visited 2 s, x.rstNow = false ∧ x.popNow = false)
      ∧ (visited 2 s).filterMap pushedNow = [2] := ⟨by decide, ⟨_, rfl⟩, by decide, by decide⟩
theorem test_witness_EveryStepKeepsTheInvariant :
    (running 82 0 2 [] (quiet 0)).Inv ∧ ∃ t, step (running 82 0 2 [] (quiet 0)) = .next t := ⟨by decide, _, rfl⟩
theorem test_witness_TheEngineNeverStops : (running 82 0 2 [1] (quiet 0)).Inv ∧ (idling (quiet 0)).Inv := by decide
/-- At address 14, after the two high ticks of a data pulse; and in a stalled PUSH. -/
theorem test_witness_EveryStepKeepsTheReferenceInvariant :
    (let s : State := { running 14 1 5 [] (quiet 0) with clkHistory := [1, 1, 0] };
      s.ReferenceInv ∧ ∃ t, step s = .next t)
      ∧ (let s := running 82 0 5 [7] (quiet 0);
      s.ReferenceInv ∧ ∃ t, step s = .next t) := ⟨⟨by decide, _, rfl⟩, by decide, _, rfl⟩
/-- At address 13, a read with the clock high; and at address 11, one with the clock low. -/
theorem test_witness_NoReadCoincidesWithAClockEdge :
    (let s : State := { running 13 1 5 [] (quiet 0) with clkHistory := [1, 0] };
      s.ReferenceInv ∧ s.en = true ∧ s.cfg.uprog[s.upc.toNat]? = some 6 ∧ decode 6 = .sample 1)
      ∧ (let s := running 11 0 5 [] (quiet 0);
      s.ReferenceInv ∧ s.en = true ∧ s.cfg.uprog[s.upc.toNat]? = some 2 ∧ decode 2 = .sample 0) := by decide
/-- At both ends of the frame. -/
theorem test_witness_FrameIsNeverInterrupted :
    (let s := running 1 0 5 [] (quiet 0);
      s.cfg.uprog = referenceUprog ∧ s.en = true ∧ s.rstNow = false ∧ 1 ≤ s.upc.toNat ∧ s.upc.toNat ≤ 81)
      ∧ (let s := running 81 0 5 [] (quiet 0);
      s.cfg.uprog = referenceUprog ∧ s.en = true ∧ s.rstNow = false ∧ 1 ≤ s.upc.toNat ∧ s.upc.toNat ≤ 81) := by decide
/-- START in tick 4 after reset (the example of 42_host_interface.md R85). -/
theorem test_witness_FirstMicroOpAfterStartIsAtAddressZero :
    let go : TickInput := { quiet 0 with start := true };
    let s : State := { idling (quiet 0) with inputs := List.replicate 4 (quiet 0) ++ go :: [quiet 0] };
    s.Inv ∧ s.cfg.uprog = referenceUprog ∧ s.en = false ∧ s.inputs = List.replicate 4 (quiet 0) ++ go :: [quiet 0]
      ∧ (∀ i ∈ List.replicate 4 (quiet 0), i.rst = false ∧ i.start = false) ∧ go.rst = false ∧ go.start = true := by decide

/-- A frame cycle with two waiting ticks, in which the ADC answers with the bits of `v` a tick after each rising edge, `0` else (V20's latency). -/
def frameCycle (v : BitVec 24) : CycleInputs where
  wait := [quiet 1, quiet 1]
  ready := quiet 0
  frame := quiet 0 :: List.replicate 10 (quiet (v.extractLsb' 23 1))
    ++ (List.range 23).flatMap (fun k => [quiet 0, quiet (v.extractLsb' (22 - k) 1), quiet (v.extractLsb' (22 - k) 1)]) ++ [quiet 0]

/-- A running engine at address 0 with the cycle's inputs, then `rest`, and `fifo` in a queue of depth 1. -/
def beforeCycle (v : BitVec 24) (fifo : List Word) (rest : List TickInput) : State :=
  { running 0 0 0xDEADBEEF fifo (quiet 0) with inputs := (frameCycle v).all ++ rest }

theorem test_witness_CycleWordIsItsThirtyTwoReads :
    (frameCycle 0xABCDEF).StartsAt (beforeCycle 0xABCDEF [] [quiet 0]) [quiet 0] := by decide
theorem test_witness_CycleClockHasTwentyFivePulses :
    (frameCycle 0x000001).StartsAt (beforeCycle 0x000001 [7] []) [] := by decide

/-- The cycle's 84 ticks end at address 82, with the queue as it was and the clock's levels those of the program. -/
theorem beforeCycle_ticks (v : BitVec 24) (fifo : List Word) (rest : List TickInput) :
    ∃ t, ticks ((frameCycle v).wait.length + 82) (beforeCycle v fifo rest) = .next t ∧ t.fifo = fifo
      ∧ t.clkHistory = levelsFrom 1 81 ++ [0, 0, 0, 0] ∧ t.upc = 82 ∧ t.en = true ∧ t.cfg = config 1 0 ∧ t.inputs = rest := by
  obtain ⟨s, hs, u1, e1, c1, -, i1, k1, -, f1⟩ := ticks_waiting (rest := quiet 0 :: ((frameCycle v).frame ++ rest)) [quiet 1, quiet 1]
    (beforeCycle v fifo rest) rfl rfl rfl rfl (by decide)
  have hp := step_wait_pass (c := 0#1) i1 rfl e1 (fetch_eq_ok.2 ⟨0, by rw [c1, u1]; rfl, rfl⟩) rfl
  have hn : (nextUpc s).toNat = 1 := by rw [nextUpc_reference_inside (by rw [c1]; rfl) (by rw [u1]; decide), u1]; rfl
  have hframe : ∀ i ∈ (frameCycle v).frame, i.rst = false ∧ i.pop = false := by
    intro i hi
    simp only [frameCycle, List.mem_append, List.mem_cons, List.mem_replicate, List.mem_flatMap, List.mem_range, List.not_mem_nil,
      or_false] at hi
    rcases hi with ((rfl | ⟨-, rfl⟩) | ⟨k, -, rfl | rfl | rfl⟩) | rfl <;> exact ⟨rfl, rfl⟩
  have hl : (frameCycle v).frame.length = 81 := rfl
  obtain ⟨t, ht, u2, e2, c2, i2, -, k2, f2⟩ := ticks_frame (rest := rest) (frameCycle v).frame ((hostPhase s).clkOut 0#1).advance.endTick
    (by simp [c1]; rfl) (by simp [e1]) (by simp [hn]) (by simp [hn, hl]) (by simp [i1]) (fun i hi => (hframe i hi).1)
  refine ⟨t, ?_, ?_, ?_, ?_, e2, ?_, i2⟩
  · rw [show (frameCycle v).wait.length + 82 = [quiet 1, quiet 1].length + (81 + 1) from rfl, ticks_add hs, ticks_succ_of_step hp, ← hl]
    exact ht
  · rw [f2 fun i hi => (hframe i hi).2]
    simp [State.popNow_of_inputs i1, quiet]
    exact f1 (by decide)
  · rw [k2, hl]
    simp [hn, k1]
    rfl
  · exact BitVec.eq_of_toNat_eq (by rw [u2, hl]; simp [hn])
  · rw [c2]
    simp [c1]
    rfl

/-- Both ways to the PUSH: no stalled tick and room; one stalled tick on a full queue and then a POP. -/
theorem test_witness_CycleLastsWaitPlusEightyTwoPlusStall :
    ((frameCycle 1).StartsAt (beforeCycle 1 [] ([] ++ quiet 0 :: [])) ([] ++ quiet 0 :: []) ∧ (quiet 0).rst = false
        ∧ ∃ t, ticks ((frameCycle 1).wait.length + 82) (beforeCycle 1 [] ([] ++ quiet 0 :: [])) = .next t
          ∧ t.fifo.length ≠ (config 1 0).fifoDepth)
      ∧ (let last : TickInput := { quiet 0 with pop := true };
        (frameCycle 1).StartsAt (beforeCycle 1 [7] ([quiet 0] ++ last :: [])) ([quiet 0] ++ last :: [])
        ∧ (∀ i ∈ [quiet 0], i.rst = false ∧ i.pop = false) ∧ last.rst = false ∧ last.pop = true
        ∧ ∃ t, ticks ((frameCycle 1).wait.length + 82) (beforeCycle 1 [7] ([quiet 0] ++ last :: [])) = .next t
          ∧ t.fifo.length = (config 1 0).fifoDepth) := by
  obtain ⟨t, ht, hf, -, -⟩ := beforeCycle_ticks 1 [] ([] ++ quiet 0 :: [])
  obtain ⟨u, hu, hg, -, -⟩ := beforeCycle_ticks 1 [7] ([quiet 0] ++ { quiet 0 with pop := true } :: [])
  exact ⟨⟨by decide, rfl, t, ht, by rw [hf]; decide⟩, by decide, by decide, rfl, rfl, u, hu, by rw [hg]; rfl⟩

/-- The line of `frameCycle` answers the clock the engine drives as the contract says, for a negative value, with a conversion ready from `T0` on; the queue
has room. -/
theorem test_witness_CyclePushesTheSignExtendedConversion :
    let ready := List.replicate 2 false ++ List.replicate 82 true;
    (frameCycle 0xABCDEF).StartsAt (beforeCycle 0xABCDEF [] [quiet 0]) (quiet 0 :: []) ∧ (quiet 0).rst = false
      ∧ ready.length = (frameCycle 0xABCDEF).wait.length + 82
      ∧ ∃ t, ticks ((frameCycle 0xABCDEF).wait.length + 82) (beforeCycle 0xABCDEF [] [quiet 0]) = .next t
        ∧ adcContract 0xABCDEF 0 0
          (adcTicks ((frameCycle 0xABCDEF).wait.length + 82) t.clkHistory (frameCycle 0xABCDEF).all ready) = true
        ∧ t.fifo.length ≠ (config 1 0).fifoDepth := by
  obtain ⟨t, ht, hf, hk, -⟩ := beforeCycle_ticks 0xABCDEF [] [quiet 0]
  exact ⟨by decide, rfl, rfl, t, ht, by rw [hk]; decide, by rw [hf]; decide⟩

/-- The PUSH tick and two ticks after it with the line high, in which the next conversion is not ready. -/
theorem test_witness_NextCycleWaitsForTheNextConversion :
    let ready := List.replicate 2 false ++ List.replicate 82 true ++ List.replicate 3 false;
    let busy := [quiet 1, quiet 1];
    let s := beforeCycle 0xABCDEF [] (quiet 1 :: (busy ++ [quiet 0]));
    (frameCycle 0xABCDEF).StartsAt s (quiet 1 :: (busy ++ [quiet 0])) ∧ (quiet 1).rst = false ∧ (∀ i ∈ busy, i.rst = false)
      ∧ ready.length = (frameCycle 0xABCDEF).wait.length + 83 + busy.length
      ∧ (∀ r ∈ ready.drop ((frameCycle 0xABCDEF).wait.length + 83), r = false)
      ∧ (∃ t, ticks ((frameCycle 0xABCDEF).wait.length + 82) s = .next t ∧ t.fifo.length ≠ s.cfg.fifoDepth)
      ∧ ∃ u, ticks ((frameCycle 0xABCDEF).wait.length + 83 + busy.length) s = .next u
        ∧ adcContract 0xABCDEF s.clk 0 (adcTicks ((frameCycle 0xABCDEF).wait.length + 83 + busy.length) u.clkHistory
          ((frameCycle 0xABCDEF).all ++ quiet 1 :: busy) ready) = true := by
  obtain ⟨t, ht, hf, hk, hu, he, hc, hi⟩ := beforeCycle_ticks 0xABCDEF [] (quiet 1 :: ([quiet 1, quiet 1] ++ [quiet 0]))
  have hp := step_push_room (c := 0#1) hi rfl he (fetch_eq_ok.2 ⟨3, by rw [hc, hu]; rfl, rfl⟩) (by simp [State.popNow_of_inputs hi, quiet, hf, hc]; decide)
  obtain ⟨u, hs, -, -, -, -, -, k1, -⟩ := ticks_waiting (rest := [quiet 0]) [quiet 1, quiet 1]
    (((hostPhase t).clkOut 0#1).fifoPush t.sr).advance.endTick (by simp [hc]; rfl) (by simp [he]) (by simp [nextUpc, hc, hu]; rfl)
    (by simp [hi]) (by decide)
  refine ⟨by decide, rfl, by decide, rfl, by decide, ⟨t, ht, by rw [hf]; decide⟩, u, ?_, ?_⟩
  · rw [show (frameCycle 0xABCDEF).wait.length + 83 + [quiet 1, quiet 1].length
      = (frameCycle 0xABCDEF).wait.length + 82 + ([quiet 1, quiet 1].length + 1) from rfl, ticks_add ht, ticks_succ_of_step hp]
    exact hs
  · rw [k1]
    simp only [State.endTick_clkHistory, State.advance_clk, State.advance_clkHistory, State.fifoPush_clk, State.fifoPush_clkHistory,
      State.clkOut_clk, State.clkOut_clkHistory, hostPhase_clkHistory, hk]
    decide

theorem test_witness_SignExtensionKeepsTheValue :
    (0x7FFFFF : BitVec 24).getLsbD 23 = false ∧ sext24 0x7FFFFF = 0x007FFFFF ∧ (0x800000 : BitVec 24).getLsbD 23 = true
      ∧ sext24 0x800000 = 0xFF800000 ∧ signed32 0xFF800000 = -8388608 := by decide
theorem test_witness_ThirtyTwoShiftsForgetTheOldContents : 32 ≤ (List.replicate 32 (1 : Level)).length := by decide
/-- Two cycles into a queue of depth 2. -/
theorem test_witness_LineStuckLowPushesZeros :
    let s : State := { running 0 0 5 [] (quiet 0) with cfg := config 2 0, inputs := List.replicate 166 (quiet 0) ++ [] };
    s.Inv ∧ s.cfg.uprog = referenceUprog ∧ s.en = true ∧ s.upc = 0 ∧ s.inputs = List.replicate 166 (quiet 0) ++ []
      ∧ (List.replicate 166 (quiet 0)).length = 83 * 2
      ∧ (∀ i ∈ List.replicate 166 (quiet 0), i.rst = false ∧ i.pop = false ∧ i.data = 0) ∧ s.fifo.length + 2 ≤ s.cfg.fifoDepth := by
  refine ⟨by decide, rfl, rfl, rfl, rfl, List.length_replicate, ?_, by decide⟩
  intro i hi
  rw [List.eq_of_mem_replicate hi]
  exact ⟨rfl, rfl, rfl⟩
theorem test_witness_WaitHasNoTimeout :
    let high := [quiet 1, { quiet 1 with pop := true }, quiet 1];
    let s : State := { running 0 0 5 [7] (quiet 1) with inputs := high ++ [quiet 0] };
    s.en = true ∧ s.cfg.uprog[s.upc.toNat]? = some 0 ∧ decode 0 = .wait 0 ∧ s.inputs = high ++ [quiet 0]
      ∧ ∀ i ∈ high, i.rst = false ∧ i.data = 1 := by decide
theorem test_witness_FullQueueStallsPushForEver :
    let busy := [quiet 0, quiet 1, quiet 0];
    let s : State := { running 82 0 5 [7] (quiet 1) with inputs := busy ++ [quiet 0] };
    s.en = true ∧ s.cfg.uprog[s.upc.toNat]? = some 3 ∧ decode 3 = .push 0 ∧ s.fifo.length = s.cfg.fifoDepth
      ∧ s.inputs = busy ++ [quiet 0] ∧ ∀ i ∈ busy, i.rst = false ∧ i.pop = false := by decide
/-- Both clauses: shared pins; and two engines with pins of their own, which step. -/
theorem test_witness_EnginesOnSharedPinsAreRefused :
    (let a := running 0 0 0 [] (quiet 0);
      let b : State := { running 82 0 3 [] (quiet 0) with cfg := config 2 1 };
      let exclusive : List State → Prop := List.Pairwise fun a b => a.cfg.clockPin ≠ b.cfg.clockPin ∧ a.cfg.clockPin ≠ b.cfg.dataPin
        ∧ a.cfg.dataPin ≠ b.cfg.clockPin ∧ a.cfg.dataPin ≠ b.cfg.dataPin;
      ¬exclusive [a, a] ∧ exclusive [a, b] ∧ ∃ ts, systemStep [a, b] = .next ts) :=
  ⟨by decide, by decide, _, rfl⟩
/-- Both clauses: a word that is an entry, and words that are none. -/
theorem test_witness_PlacedTableWordIsRunByTheNextStep :
    decodeTableWord 8 7 = some (.push 1) ∧ decodeTableWord 8 8 = none ∧ decodeTableWord 0 0 = none := by decide

end Sys2Proof.Tests
end

section
/-! PROOFS. The configuration is immutable (spec/00_scope.md R7): per operation, per tick (`step_cfg`), per run. -/

namespace Sys2Proof.Machine

/-- Each operation is a chain of the shared state operations, none of which writes the configuration. -/
theorem exec_cfg {i : Instr} {s t : State} (h : exec i s = .next t) : t.cfg = s.cfg := by
  cases i with
  | wait c => obtain ⟨-, rfl⟩ | ⟨-, rfl⟩ := execWait_cases h <;> simp
  | hold c => simp [execHold_cases h]
  | sample c => simp [execSample_cases h]
  | push c => obtain ⟨-, rfl⟩ | ⟨-, rfl⟩ := execPush_cases h <;> simp
  | start => cases h; exact State.hostStart_cfg s
  | pop => cases h; exact State.hostPop_cfg s

theorem ticks_cfg {k : Nat} {s t : State} (h : ticks k s = .next t) : t.cfg = s.cfg := by
  induction k generalizing s with
  | zero => cases h; rfl
  | succ k ih =>
    obtain ⟨u, hstep, hrest⟩ := ticks_succ_eq_next.1 h
    exact (ih hrest).trans (step_cfg hstep)

/-- Settles O26: per operation by its cases, per run by induction on the number of ticks. -/
theorem configurationIsImmutable : Obligations.ConfigurationIsImmutable :=
  ⟨fun _ _ _ => exec_cfg, fun _ _ _ => ticks_cfg⟩

end Sys2Proof.Machine
end

section
/-! PROOFS. The state after reset (spec/10_state.md R22) and the clock's level after a tick (R15). -/

namespace Sys2Proof.Machine

theorem State.rxValid_eq_false_iff {s : State} : s.rxValid = false ↔ s.fifo = [] := by
  simp [State.rxValid, State.fifoEmpty]

/-- Settles O13: the fields as `State.reset` lists them; `rx_valid` is low because the queue is empty. -/
theorem stateAfterReset : Obligations.StateAfterReset :=
  ⟨rfl, rfl, rfl, rfl, rfl, State.rxValid_eq_false_iff.2 rfl⟩

/-- A reset tick and an idle tick both drive the clock line low. -/
theorem step_clk_of_rst_or_idle {s t : State} (h : step s = .next t) (hq : s.rstNow = true ∨ s.en = false) : t.clk = 0#1 := by
  obtain ⟨-, rfl⟩ | ⟨-, -, rfl⟩ | ⟨hr, he, -⟩ := step_cases h
  · simp [resetTick]
  · simp [idleTick]
  · simp [hr, he] at hq

/-- A running tick leaves the clock at the `clk` field of the entry at `upc`: the six cases, stalled or not, differ in what follows
`clkOut`, and nothing that follows writes the clock. -/
theorem step_clk_of_running {s t : State} (h : step s = .next t) (hr : s.rstNow = false) (he : s.en = true) :
    ∃ w, s.cfg.uprog[s.upc.toNat]? = some w ∧ t.clk = Entry.clk w := by
  obtain ⟨w, _, hw, rfl, hcases⟩ := step_running_cases hr he h
  refine ⟨w, hw, ?_⟩
  obtain ⟨-, -, rfl⟩ | ⟨-, -, rfl⟩ | ⟨-, rfl⟩ | ⟨-, rfl⟩ | ⟨-, -, rfl⟩ | ⟨-, -, rfl⟩ := hcases <;> simp

/-- Settles O21: a tick that resets or is idle, and a running one. -/
theorem clockTakesTheSideSetBit : Obligations.ClockTakesTheSideSetBit :=
  fun _ _ h => ⟨step_clk_of_rst_or_idle h, step_clk_of_running h⟩

end Sys2Proof.Machine
end

section
/-! PROOFS. The order within a tick (spec/20_memory.md R40): a POP makes room for the PUSH of its tick, and does not see the word it appends. -/

namespace Sys2Proof.Machine

/-- Any tick of a running engine on PUSH, listed or not, with room in the queue after the host phase (R60, R64). -/
theorem step_push_of_room {s : State} {c : Level} (hr : s.rstNow = false) (he : s.en = true) (hf : fetch s = .ok (.push c))
    (hroom : (hostPhase s).fifo.length ≠ s.cfg.fifoDepth) :
    step s = .next (((hostPhase s).clkOut c).fifoPush s.sr).advance.endTick := by
  rw [step_of_fetch hr he hf]
  simp [exec, execPush, State.fifoFull, hroom, mapNext, -hostPhase_fifo]

/-- A POP leaves room for the PUSH of its tick: on a queue filled to `FIFO_DEPTH` because it takes a word, on an empty one because
`FIFO_DEPTH` is at least 1 (R6). -/
theorem step_push_of_pop {s : State} {c : Level} (hr : s.rstNow = false) (he : s.en = true) (hp : s.popNow = true)
    (hf : fetch s = .ok (.push c)) (hq : s.fifo.length ≤ s.cfg.fifoDepth) (hd : 1 ≤ s.cfg.fifoDepth) :
    ∃ t, step s = .next t ∧ t.delivered = s.fifo.head? ∧ t.fifo = s.fifo.tail ++ [s.sr] ∧ t.upc = nextUpc s := by
  have hroom : (hostPhase s).fifo.length ≠ s.cfg.fifoDepth := by simp [hp]; omega
  exact ⟨_, step_push_of_room hr he hf hroom, by simp [hp], by simp [hp], by simp⟩

/-- Settles O19: the POP delivers the head of the old queue, and the PUSH appends to the old queue's tail. -/
theorem popIsAppliedBeforeThePushOfItsTick : Obligations.PopIsAppliedBeforeThePushOfItsTick := by
  intro s w c hr he hp hw hdec
  have hf : fetch s = .ok (.push c) := fetch_eq_ok.2 ⟨w, hw, hdec⟩
  constructor
  · intro x rest hq hfull
    have hd : 1 ≤ s.cfg.fifoDepth := by rw [← hfull, hq]; simp
    simpa [hq] using step_push_of_pop hr he hp hf hfull.le hd
  · intro hq hd
    obtain ⟨t, hstep, hdel, hfifo, hupc⟩ := step_push_of_pop hr he hp hf (by simp [hq]) hd
    rw [hq] at hdel hfifo
    exact ⟨t, hstep, hdel, hfifo, hupc, by rw [State.rxData, hfifo]; rfl⟩

end Sys2Proof.Machine
end

section
/-! PROOFS. Format `U` (spec/30_encoding.md R45): an entry is its `clk` field over its `op` field, and both round trips follow from that. -/

namespace Sys2Proof

theorem Entry.clk_append_op (w : Entry) : Entry.clk w ++ Entry.op w = w :=
  (BitVec.extractLsb'_append_extractLsb'_eq_extractLsb' rfl).trans BitVec.extractLsb'_eq_self

/-- The `op` field is the low two bits, so `clk` weighs 4. -/
theorem Entry.toNat_append (c : Level) (op : BitVec 2) : (c ++ op).toNat = 4 * c.toNat + op.toNat := by
  rw [BitVec.toNat_append, ← Nat.shiftLeft_add_eq_or_of_lt op.isLt, Nat.shiftLeft_eq, Nat.mul_comm]

theorem encode_decode (w : Entry) : encode (decode w) = [w] := by
  obtain ⟨hwait, hhold, hsample, hpush⟩ := Machine.op_of_decode w (Entry.clk w)
  obtain hd | hd | hd | hd := decode_clk w <;> rw [hd, encode]
  · rw [← hwait hd, Entry.clk_append_op]
  · rw [← hhold hd, Entry.clk_append_op]
  · rw [← hsample hd, Entry.clk_append_op]
  · rw [← hpush hd, Entry.clk_append_op]

/-- The per-operation laws of `Laws.OneEntry` as one. -/
theorem disassemble_encode (i : Instr) : disassemble (encode i) = if i.isMicroOp then [i] else [] := by
  cases i with
  | wait c => exact Laws.OneEntry.wait c
  | hold c => exact Laws.OneEntry.hold c
  | sample c => exact Laws.OneEntry.sample c
  | push c => exact Laws.OneEntry.push c
  | start => exact Laws.OneEntry.start
  | pop => exact Laws.OneEntry.pop

/-- Settles O2: the value of the appended fields, and the two round trips. -/
theorem entryIsFourTimesClockPlusOperation : Obligations.EntryIsFourTimesClockPlusOperation := by
  refine ⟨fun c => ?_, encode_decode, fun i hi => (disassemble_encode i).trans (if_pos hi)⟩
  simp [encode, Entry.toNat_append, -BitVec.toNat_append]

end Sys2Proof
end

section
/-! PROOFS. The micro-operations, each as one equation for its whole next state (spec/40_microops.md R61 to R64). -/

namespace Sys2Proof.Machine

/-- `WAIT c`: the two outcomes differ in `upc` alone. -/
theorem exec_wait (c : Level) (s : State) :
    exec (.wait c) s = .next { s with clk := c, upc := if (s.clkOut c).dataIn = 1#1 then s.upc else nextUpc s } := by
  rw [exec, execWait]
  split_ifs <;> rfl

theorem exec_hold (c : Level) (s : State) : exec (.hold c) s = .next { s with clk := c, upc := nextUpc s } := rfl

theorem exec_sample (c : Level) (s : State) :
    exec (.sample c) s = .next { s with clk := c, sr := shiftInsert s.sr (s.clkOut c).dataIn, upc := nextUpc s } := rfl

/-- `PUSH c`: a full queue or one with room. -/
theorem exec_push (c : Level) (s : State) :
    exec (.push c) s
      = if s.fifo.length = s.cfg.fifoDepth then .next { s with clk := c }
        else .next { s with clk := c, fifo := s.fifo ++ [s.sr], upc := nextUpc s } := by
  simp only [exec, execPush, State.fifoFull, beq_iff_eq]
  split_ifs <;> rfl

/-- Shifting in a bit doubles the word and adds the bit, modulo `2^32`: bits 30..0 are what `sr` is modulo `2^31` (R63). -/
theorem toNat_shiftInsert (sr : Word) (d : Level) : (shiftInsert sr d).toNat = (2 * sr.toNat + d.toNat) % 2 ^ 32 := by
  have happend : (shiftInsert sr d).toNat = 2 * (sr.toNat % 2 ^ 31) + d.toNat := by
    rw [shiftInsert, BitVec.toNat_append, ← Nat.shiftLeft_add_eq_or_of_lt d.isLt, Nat.shiftLeft_eq, BitVec.extractLsb'_toNat,
      Nat.shiftRight_zero, Nat.mul_comm]
  have hd : d.toNat < 2 := d.isLt
  omega

/-- Settles O5: the value from O2, the next state `exec_wait`. -/
theorem waitStallsWhileTheDataLineIsHigh : Obligations.WaitStallsWhileTheDataLineIsHigh := by
  intro c s
  obtain ⟨hvalue, -, -, -⟩ := entryIsFourTimesClockPlusOperation.1 c
  exact ⟨hvalue, exec_wait c s⟩

/-- Settles O6: the value from O2, the next state `exec_hold`. -/
theorem holdOnlyDrivesTheClock : Obligations.HoldOnlyDrivesTheClock := by
  intro c s
  obtain ⟨-, hvalue, -, -⟩ := entryIsFourTimesClockPlusOperation.1 c
  exact ⟨hvalue, exec_hold c s⟩

/-- Settles O7: the value from O2, the next state `exec_sample`; the statement's `sr[30:0] ++ d` is `shiftInsert`. -/
theorem sampleShiftsTheDataBitIntoSr : Obligations.SampleShiftsTheDataBitIntoSr := by
  intro c s
  obtain ⟨-, -, hvalue, -⟩ := entryIsFourTimesClockPlusOperation.1 c
  exact ⟨hvalue, exec_sample c s, toNat_shiftInsert s.sr (s.clkOut c).dataIn⟩

/-- Settles O8: the value from O2, the next state `exec_push`. -/
theorem pushAppendsSrOrStalls : Obligations.PushAppendsSrOrStalls := by
  intro c s
  obtain ⟨-, -, -, hvalue⟩ := entryIsFourTimesClockPlusOperation.1 c
  exact ⟨hvalue, exec_push c s⟩

end Sys2Proof.Machine
end

section
/-! PROOFS. The idle tick (spec/40_microops.md R66), and `upc` after any tick without reset (R65). -/

namespace Sys2Proof.Machine

/-- Settles O14: the idle tick is the host phase, the clock driven low, and the tick's end. -/
theorem idleTickOnlyAppliesHostRequests : Obligations.IdleTickOnlyAppliesHostRequests := by
  intro s hr he
  refine ⟨idleTick s, step_of_idle hr he, ?_⟩
  simp [idleTick, he]

/-- Inside a program of at most 128 entries `upc + 1` does not wrap at 7 bits, so the last address alone leads back to 0. -/
theorem toNat_nextUpc {s : State} (h : s.upc.toNat < s.cfg.uprog.length) (hl : s.cfg.uprog.length ≤ 128) :
    (nextUpc s).toNat = if s.upc.toNat + 1 = s.cfg.uprog.length then 0 else s.upc.toNat + 1 := by
  unfold nextUpc
  split_ifs with hlast
  · rfl
  · rw [BitVec.toNat_add, BitVec.toNat_ofNat]
    omega

/-- The tick's end keeps `upc`, so a running tick leaves it where the micro-operation, at the state after the host phase, does. -/
theorem step_upc_of_exec {s t u : State} {w : Entry} {i : Instr} (hr : s.rstNow = false) (he : s.en = true)
    (hw : s.cfg.uprog[s.upc.toNat]? = some w) (hd : decode w = i) (h : step s = .next t)
    (hu : exec i (hostPhase s) = .next u) : t.upc = u.upc := by
  rw [step_of_fetch hr he (fetch_eq_ok.2 ⟨w, hw, hd⟩), hu] at h
  cases h
  exact State.endTick_upc u

/-- Settles O22: the value of `next(upc)`, then the idle tick and the micro-operations by their equations at the state after the host
phase, which has `upc`, the program and the queue's depth of the tick's start. -/
theorem upcAdvancesUnlessWaitOrPushStalls : Obligations.UpcAdvancesUnlessWaitOrPushStalls := by
  refine ⟨fun _ => toNat_nextUpc, fun s t hr h => ⟨fun he => ?idle, fun w c he hw hd => ?wait, fun w c he hw hd => ?push, ?other⟩⟩
  case idle =>
    rw [step_of_idle hr he] at h
    cases h
    simp [idleTick]
  case wait => simpa using step_upc_of_exec hr he hw hd h (exec_wait c _)
  case push =>
    have hpush := exec_push c (hostPhase s)
    rw [hostPhase_cfg] at hpush
    by_cases hfull : (hostPhase s).fifo.length = s.cfg.fifoDepth
    · rw [if_pos hfull] at hpush ⊢
      simpa using step_upc_of_exec hr he hw hd h hpush
    · rw [if_neg hfull] at hpush ⊢
      simpa using step_upc_of_exec hr he hw hd h hpush
  case other =>
    rintro w c he hw (hd | hd)
    · simpa using step_upc_of_exec hr he hw hd h (exec_hold c _)
    · simpa using step_upc_of_exec hr he hw hd h (exec_sample c _)

end Sys2Proof.Machine
end

section
/-! PROOFS. The sign extension of the conversion (spec/41_frame_cycle.md R79): `sext_24` and `signed32` are the library's, bit by bit. -/

namespace Sys2Proof.Machine

/-- Bit by bit: a field's own bits below 24, copies of bit 23 above. -/
theorem getLsbD_sext24 (f : BitVec 24) (i : Nat) (hi : i < 32) :
    (sext24 f).getLsbD i = if i < 24 then f.getLsbD i else f.getLsbD 23 := by
  rw [sext24, BitVec.getLsbD_append]
  split_ifs with hlow
  · rfl
  · have hcopy : i - 24 < 1 * 8 := by omega
    rw [BitVec.getLsbD_replicate, decide_eq_true hcopy, Nat.mod_one]
    simp

/-- `sext_24` is the library's sign extension. -/
theorem sext24_eq_signExtend (f : BitVec 24) : sext24 f = f.signExtend 32 := by
  refine BitVec.eq_of_getLsbD_eq fun i hi => ?_
  rw [getLsbD_sext24 f i hi, BitVec.getLsbD_signExtend, decide_eq_true hi, Bool.true_and, BitVec.msb_eq_getLsbD_last]

/-- `signed32` is the library's two's-complement reading. -/
theorem signed32_eq_toInt (w : Word) : signed32 w = w.toInt := by
  have hsign : w.extractLsb' 31 1 = 0#1 ↔ ¬ w.msb = true := by
    rw [BitVec.msb_eq_getLsbD_last, BitVec.eq_of_getLsbD_eq_iff]
    simp
  rw [BitVec.toInt_eq_msb_cond, signed32]
  simp only [hsign, ite_not]
  rfl

/-- The value of `sext_24`: the field, plus `0xFF000000` for the eight copies of a sign bit that is 1. -/
theorem toNat_sext24 (f : BitVec 24) : (sext24 f).toNat = f.toNat + if f.getLsbD 23 = true then 0xFF000000 else 0 := by
  rw [sext24_eq_signExtend, BitVec.toNat_signExtend, BitVec.toNat_setWidth_of_le (by decide), BitVec.msb_eq_getLsbD_last]

/-- Settles O45: the value by `toNat_sext24`, the bits by `getLsbD_sext24`, and the signed reading from the library's, which sign extension
keeps. -/
theorem signExtensionKeepsTheValue : Obligations.SignExtensionKeepsTheValue := by
  intro f
  refine ⟨fun hpos => ?_, fun hneg => ?_, fun i hi => ?_, fun i hlow hi => ?_, ?_⟩
  · rw [toNat_sext24, hpos]; rfl
  · rw [toNat_sext24, if_pos hneg]
  · rw [getLsbD_sext24 f i (by omega), if_pos hi]
  · rw [getLsbD_sext24 f i hi, if_neg (by omega)]
  · rw [signed32_eq_toInt, sext24_eq_signExtend, BitVec.toInt_signExtend_of_le (by decide)]

end Sys2Proof.Machine
end

section
/-! PROOFS. POP (spec/42_host_interface.md R86): one equation for its whole next state, and its two cases. -/

namespace Sys2Proof.Machine

theorem exec_pop (s : State) : exec .pop s = .next { s with delivered := s.fifo.head?, fifo := s.fifo.tail } := rfl

theorem exec_pop_of_cons {s : State} {w : Word} {rest : List Word} (hq : s.fifo = w :: rest) :
    exec .pop s = .next { s with delivered := some w, fifo := rest } := by
  rw [exec_pop, hq, List.head?_cons, List.tail_cons]

/-- The tail of an empty queue is that queue, so `delivered` alone is written. -/
theorem exec_pop_of_nil {s : State} (hq : s.fifo = []) : exec .pop s = .next { s with delivered := none } := by
  have htail : s.fifo.tail = s.fifo := by rw [hq, List.tail_nil]
  rw [exec_pop, htail, hq, List.head?_nil]

/-- Settles O10: POP on a queue with words, on an empty one, and the first case twice: the second POP finds the queue without the word
the first one took. -/
theorem popTakesTheOldestWord : Obligations.PopTakesTheOldestWord := by
  refine ⟨rfl, fun _ _ _ => exec_pop_of_cons, fun _ => exec_pop_of_nil, fun s v w rest hq => ?_⟩
  exact ⟨{ s with delivered := some v, fifo := w :: rest }, exec_pop_of_cons hq, rfl, exec_pop_of_cons rfl⟩

end Sys2Proof.Machine
end

section
/-! PROOFS. The reset tick (spec/70_reset_and_hazards.md R110): the fields of its end state, with no request of the host and no micro-operation
in them. -/

namespace Sys2Proof.Machine

/-- Settles O12: a step with `rst` asserted is the reset tick, whatever the host asks and whatever stands at `upc`; the end of the tick keeps
the values `applyReset` gave, and records the level and takes the input only. -/
theorem resetTickClearsTheEngine : Obligations.ResetTickClearsTheEngine := by
  intro s hrst
  refine ⟨resetTick s, step_of_rst hrst, ?_⟩
  simp [resetTick]

end Sys2Proof.Machine
end

section
/-! PROOFS. Programs and their ROMs (spec/30_encoding.md sections 1 and 5): assembling and disassembling undo each other. -/

namespace Sys2Proof

theorem disassemble_assemble {p : List Instr} (hp : ∀ i ∈ p, i.isMicroOp = true) : disassemble (assemble p) = p := by
  induction p with
  | nil => rfl
  | cons i p ih =>
    obtain ⟨hi, hrest⟩ := List.forall_mem_cons.1 hp
    rw [assemble_cons, disassemble_append, disassemble_encode, if_pos hi, ih hrest, List.singleton_append]

theorem assemble_disassemble (rom : List Entry) : assemble (disassemble rom) = rom := by
  induction rom with
  | nil => rfl
  | cons w rom ih => rw [disassemble_cons, assemble_cons, encode_decode, ih, List.singleton_append]

/-- Settles O3: the two round trips; disassembling keeps the length, so the first also gives the number of entries. -/
theorem assembledProgramDisassemblesToItself : Obligations.AssembledProgramDisassemblesToItself := by
  refine ⟨fun p hp => ?_, assemble_disassemble⟩
  obtain ⟨-, -, hmicro⟩ := (programWf_iff p).1 hp
  have hback := disassemble_assemble hmicro
  have hlength : (disassemble (assemble p)).length = (assemble p).length := List.length_map _
  exact ⟨hback, by rw [← hlength, hback]⟩

end Sys2Proof
end

section
/-! PROOFS. The frame of the operations (spec/40_microops.md sections 2 to 5), and what it says of a tick: the pieces of state that the tick's
end and the host phase alone write. -/

namespace Sys2Proof.Machine

/-- Settles O11: by operation, and for WAIT and PUSH by whether they stall. -/
theorem operationsLeaveTheRestUnchanged : Obligations.OperationsLeaveTheRestUnchanged := by
  intro i s t h
  cases i with
  | wait c => obtain ⟨-, rfl⟩ | ⟨-, rfl⟩ := execWait_cases h <;> simp [Instr.isMicroOp]
  | hold c => simp [execHold_cases h, Instr.isMicroOp]
  | sample c => simp [execSample_cases h, Instr.isMicroOp]
  | push c => obtain ⟨-, rfl⟩ | ⟨-, rfl⟩ := execPush_cases h <;> simp [Instr.isMicroOp]
  | start => cases h; simp
  | pop => cases h; simp

theorem decode_ne_start (w : Entry) : decode w ≠ .start := fun h => by simpa [h, Instr.isMicroOp] using decode_isMicroOp w

theorem decode_ne_pop (w : Entry) : decode w ≠ .pop := fun h => by simpa [h, Instr.isMicroOp] using decode_isMicroOp w

/-- Settles O15: in a running tick the micro-operation leaves both fields to the tick's end. -/
theorem everyTickRecordsItsClockLevel : Obligations.EveryTickRecordsItsClockLevel := by
  intro s t h
  obtain ⟨-, rfl⟩ | ⟨-, -, rfl⟩ | ⟨-, -, w, u, -, hu, rfl⟩ := step_cases h
  · simp [resetTick]
  · simp [idleTick]
  · obtain ⟨-, hinputs, hhistory, -⟩ := operationsLeaveTheRestUnchanged _ _ _ hu
    simp [hinputs, hhistory]

/-- Settles O23: no micro-operation writes `en`, so a running tick leaves it as the host phase does. -/
theorem enableIsSetByStartAndClearedByReset : Obligations.EnableIsSetByStartAndClearedByReset := by
  intro s t h
  obtain ⟨hr, rfl⟩ | ⟨hr, -, rfl⟩ | ⟨hr, -, w, u, -, hu, rfl⟩ := step_cases h
  · simp [resetTick, hr]
  · simp [idleTick, hr]
  · obtain ⟨-, -, -, hen, -⟩ := operationsLeaveTheRestUnchanged _ _ _ hu
    simp [hen (decode_ne_start w), hr]

/-- What the host receives in a tick is the word popped in it: no micro-operation delivers. -/
theorem step_delivered {s t : State} (h : step s = .next t) : t.delivered = poppedNow s := by
  obtain ⟨hr, rfl⟩ | ⟨hr, -, rfl⟩ | ⟨hr, -, w, u, -, hu, rfl⟩ := step_cases h
  · simp [resetTick, poppedNow, hr]
  · cases hp : s.popNow <;> simp [idleTick, poppedNow, hr, hp]
  · obtain ⟨-, -, -, -, -, -, -, hdelivered⟩ := operationsLeaveTheRestUnchanged _ _ _ hu
    cases hp : s.popNow <;> simp [hdelivered (decode_ne_pop w), poppedNow, hr, hp]

theorem State.rxValid_iff {s : State} : s.rxValid = true ↔ s.fifo ≠ [] := by
  rw [Ne, ← State.rxValid_eq_false_iff, Bool.not_eq_false]

/-- Settles O20: the popped word is the head of the queue, which is `rx_data`, and none on an empty queue, where `rx_valid` is 0. -/
theorem popSucceedsExactlyWhenRxValid : Obligations.PopSucceedsExactlyWhenRxValid := by
  intro s t hr h
  refine ⟨?_, State.rxValid_iff, by rw [State.rxValid_iff, State.rxData, List.isSome_head?]⟩
  rw [step_delivered h, poppedNow, hr, State.rxData]
  cases hv : s.rxValid with
  | true => cases s.popNow <;> rfl
  | false => cases s.popNow <;> simp [State.rxValid_eq_false_iff.1 hv]

end Sys2Proof.Machine
end

section
/-! PROOFS. The queue (spec/20_memory.md sections 6, 7 and 9): in one tick, and over a run. -/

namespace Sys2Proof.Machine

/-- The host phase takes the popped word off the head of the queue. -/
theorem poppedNow_append_hostPhase_fifo {s : State} (hr : s.rstNow = false) :
    (poppedNow s).toList ++ (hostPhase s).fifo = s.fifo := by
  rw [poppedNow, hr, hostPhase_fifo]
  cases s.popNow
  · rfl
  · cases s.fifo <;> rfl

theorem pushedNow_of_idle {s : State} (he : s.en = false) : pushedNow s = none := by simp [pushedNow, he]

/-- The word pushed, by the fetched micro-operation. -/
theorem pushedNow_of_fetch {s : State} {i : Instr} (hr : s.rstNow = false) (he : s.en = true) (hf : fetch s = .ok i) :
    pushedNow s = if (∃ c, i = .push c) ∧ (hostPhase s).fifo.length ≠ s.cfg.fifoDepth then some s.sr else none := by
  rw [pushedNow, hr, he, fetch_hostPhase, hf]
  cases i <;> simp [State.fifoFull, -hostPhase_fifo]

/-- A tick without reset appends the pushed word to what the host phase leaves of the queue. -/
theorem step_fifo {s t : State} (hr : s.rstNow = false) (h : step s = .next t) :
    t.fifo = (hostPhase s).fifo ++ (pushedNow s).toList := by
  cases he : s.en with
  | false =>
    rw [step_of_idle hr he] at h
    cases h
    simp [idleTick, pushedNow_of_idle he]
  | true =>
    obtain ⟨w, c, hw, -, hcases⟩ := step_running_cases hr he h
    have hpushed {i : Instr} (hd : decode w = i) := pushedNow_of_fetch hr he (fetch_eq_ok.2 ⟨w, hw, hd⟩)
    obtain ⟨hd, -, rfl⟩ | ⟨hd, -, rfl⟩ | ⟨hd, rfl⟩ | ⟨hd, rfl⟩ | ⟨hd, hq, rfl⟩ | ⟨hd, hq, rfl⟩ := hcases <;> rw [hpushed hd]
    · simp
    · simp
    · simp
    · simp
    · rw [if_neg fun hroom => hroom.2 hq]; simp
    · rw [if_pos ⟨⟨c, rfl⟩, hq⟩]; simp

/-- Settles O29: what the host phase pops and what the micro-operation then pushes. -/
theorem eachTickKeepsTheQueueInOrder : Obligations.EachTickKeepsTheQueueInOrder := by
  intro s t hr h
  refine ⟨?_, step_delivered h⟩
  rw [step_fifo hr h, ← List.append_assoc, poppedNow_append_hostPhase_fifo hr]

/-- Settles O30: by induction on the number of ticks, each tick by O29. -/
theorem wordsLeaveInTheOrderTheyEntered : Obligations.WordsLeaveInTheOrderTheyEntered := by
  intro k
  induction k with
  | zero => intro s t h _; cases h; simp [visited]
  | succ k ih =>
    intro s t h hr
    obtain ⟨u, hstep, hrest⟩ := ticks_succ_eq_next.1 h
    rw [visited_succ_of_step hstep] at hr ⊢
    obtain ⟨hrs, hru⟩ := List.forall_mem_cons.1 hr
    obtain ⟨htick, -⟩ := eachTickKeepsTheQueueInOrder s u hrs hstep
    have hrun := ih u t hrest hru
    simp only [List.filterMap_eq_flatMap_toList, List.flatMap_cons] at hrun ⊢
    calc _ = (poppedNow s).toList ++ (u.fifo ++ (visited k u).flatMap fun x => (pushedNow x).toList) := by
          rw [List.append_assoc, hrun]
      _ = _ := by rw [← List.append_assoc, htick, List.append_assoc]

end Sys2Proof.Machine
end

section
/-! PROOFS. The invariant of every program (`State.Inv`): it holds after reset, every tick keeps it, and from it no tick refuses
(spec/60_exceptions.md section 1). -/

namespace Sys2Proof.Machine

/-- Settles O32: the configuration is well formed whatever FIFO_DEPTH's free part is, and the rest is as `State.reset` lists it. -/
theorem invariantHoldsAtReset : Obligations.InvariantHoldsAtReset := by
  have hwf : referenceConfig.wf = true :=
    (ProtocolConfig.wf_iff _).2 ⟨by decide, by decide, Nat.le_add_left 1 Config.fifoDepthPred⟩
  exact ⟨hwf, by decide, Nat.zero_le _, fun _ => ⟨rfl, rfl, rfl, rfl⟩, rfl⟩

/-- Where a tick leaves `upc`: at 0 by reset, where it was (idle or stalled), or one address on. -/
theorem step_upc_cases {s t : State} (h : step s = .next t) : t.upc = 0#7 ∨ t.upc = s.upc ∨ t.upc = nextUpc s := by
  obtain ⟨-, rfl⟩ | ⟨-, -, rfl⟩ | ⟨hr, he, -⟩ := step_cases h
  · simp [resetTick]
  · simp [idleTick]
  · obtain ⟨w, c, -, -, ⟨-, -, rfl⟩ | ⟨-, -, rfl⟩ | ⟨-, rfl⟩ | ⟨-, rfl⟩ | ⟨-, -, rfl⟩ | ⟨-, -, rfl⟩⟩ :=
      step_running_cases hr he h <;> simp

theorem step_upc_lt {s t : State} (hwf : s.cfg.wf = true) (hupc : s.upc.toNat < s.cfg.uprog.length) (h : step s = .next t) :
    t.upc.toNat < s.cfg.uprog.length := by
  obtain ⟨hfirst, hlast, -⟩ := (ProtocolConfig.wf_iff _).1 hwf
  obtain hu | hu | hu := step_upc_cases h <;> rw [hu]
  · exact hfirst
  · exact hupc
  · exact nextUpc_lt hupc hlast

/-- PUSH appends only below FIFO_DEPTH, and nothing else lengthens the queue. -/
theorem step_fifo_length_le {s t : State} (hfifo : s.fifo.length ≤ s.cfg.fifoDepth) (h : step s = .next t) :
    t.fifo.length ≤ s.cfg.fifoDepth := by
  have hhost := (hostPhase_fifo_length_le s).trans hfifo
  obtain ⟨-, rfl⟩ | ⟨-, -, rfl⟩ | ⟨hr, he, -⟩ := step_cases h
  · exact Nat.zero_le _
  · exact hhost
  · obtain ⟨w, c, -, -, ⟨-, -, rfl⟩ | ⟨-, -, rfl⟩ | ⟨-, rfl⟩ | ⟨-, rfl⟩ | ⟨-, -, rfl⟩ | ⟨-, hroom, rfl⟩⟩ :=
      step_running_cases hr he h
    · exact hhost
    · exact hhost
    · exact hhost
    · exact hhost
    · exact hhost
    · have hlt := lt_of_le_of_ne hhost hroom
      simpa [-hostPhase_fifo] using hlt

/-- An engine that is idle after a tick was reset in it, or was idle before it and got no START. -/
theorem step_idle_cases {s t : State} (h : step s = .next t) (he : t.en = false) :
    t = resetTick s ∨ (s.en = false ∧ t = idleTick s) := by
  obtain ⟨-, rfl⟩ | ⟨-, hs, rfl⟩ | ⟨hr, hs, -⟩ := step_cases h
  · exact .inl rfl
  · exact .inr ⟨hs, rfl⟩
  · rw [enableIsSetByStartAndClearedByReset s t h, hr, hs] at he
    simp at he

/-- Settles O33: clause by clause. -/
theorem everyStepKeepsTheInvariant : Obligations.EveryStepKeepsTheInvariant := by
  intro s t ⟨hwf, hupc, hfifo, hidle, hclk⟩ h
  have hcfg := step_cfg h
  refine ⟨by rwa [hcfg], by rw [hcfg]; exact step_upc_lt hwf hupc h, by rw [hcfg]; exact step_fifo_length_le hfifo h, fun he => ?_, ?_⟩
  · obtain rfl | ⟨hs, rfl⟩ := step_idle_cases h he
    · simp [resetTick]
    · obtain ⟨hu, -, hsr, hq⟩ := hidle hs
      simp [idleTick, hu, hsr, hq]
  · obtain ⟨hhistory, -⟩ := everyTickRecordsItsClockLevel s t h
    rw [hhistory, List.headD_cons]

theorem exec_total (i : Instr) (s : State) : ∃ t, exec i s = .next t := by
  cases i with
  | wait c => exact ⟨_, exec_wait c s⟩
  | hold c => exact ⟨_, exec_hold c s⟩
  | sample c => exact ⟨_, exec_sample c s⟩
  | push c => rw [exec_push]; split_ifs <;> exact ⟨_, rfl⟩
  | start => exact ⟨_, rfl⟩
  | pop => exact ⟨_, exec_pop s⟩

/-- Settles O18: reset and idle ticks have a next state, and so has every operation, so a refusal is the fetch's. -/
theorem stepRefusesExactlyOutsideTheProgram : Obligations.StepRefusesExactlyOutsideTheProgram := by
  intro s r
  constructor
  · intro h
    cases hr : s.rstNow with
    | true => rw [step_of_rst hr] at h; cases h
    | false =>
      cases he : s.en with
      | false => rw [step_of_idle hr he] at h; cases h
      | true =>
        cases hf : fetch s with
        | error e =>
          rw [step_of_outside hr he hf] at h
          cases h
          exact ⟨rfl, rfl, fetch_eq_error.1 hf⟩
        | ok i =>
          obtain ⟨u, hu⟩ := exec_total i (hostPhase s)
          rw [step_of_fetch hr he hf, hu] at h
          cases h
  · rintro ⟨hr, he, hout, hname⟩
    exact step_of_outside hr he (fetch_eq_error.2 ⟨hout, hname⟩)

theorem step_total {s : State} (hupc : s.upc.toNat < s.cfg.uprog.length) : ∃ t, step s = .next t := by
  cases h : step s with
  | next t => exact ⟨t, rfl⟩
  | fault r => nomatch r
  | refused r =>
    obtain ⟨-, -, hout, -⟩ := (stepRefusesExactlyOutsideTheProgram s r).1 h
    omega

/-- Settles O34: the invariant has `upc` inside the program, and the next state has the invariant again. -/
theorem theEngineNeverStops : Obligations.TheEngineNeverStops := by
  intro k
  induction k with
  | zero => exact fun s hinv => ⟨s, rfl, hinv⟩
  | succ k ih =>
    intro s hinv
    have ⟨_, hupc, _⟩ := hinv
    obtain ⟨u, hu⟩ := step_total hupc
    rw [ticks_succ_of_step hu]
    exact ih u (everyStepKeepsTheInvariant s u hinv hu)

theorem ticks_inv {k : Nat} {s t : State} (hinv : s.Inv) (h : ticks k s = .next t) : t.Inv := by
  obtain ⟨u, hu, huinv⟩ := theEngineNeverStops k s hinv
  rw [h] at hu
  cases hu
  exact huinv

/-- Settles O31: without POPs the queue law (O30) says that the run appends the pushed words to the queue, and the queue is bounded. -/
theorem unreadSamplesAreBoundedByTheQueue : Obligations.UnreadSamplesAreBoundedByTheQueue := by
  intro k s t hinv h hquiet
  have hpopped : (visited k s).filterMap poppedNow = [] := by
    rw [List.filterMap_eq_nil_iff]
    exact fun x hx => by simp [poppedNow, (hquiet x hx).2]
  have hqueue := wordsLeaveInTheOrderTheyEntered k s t h fun x hx => (hquiet x hx).1
  rw [hpopped, List.nil_append] at hqueue
  obtain ⟨-, -, hbound, -⟩ := ticks_inv hinv h
  rw [hqueue, ticks_cfg h, List.length_append] at hbound
  omega

end Sys2Proof.Machine
end

section
/-! PROOFS. The invariant of the reference program (spec/41_frame_cycle.md sections 2 and 3, spec/70_reset_and_hazards.md section 3): the clock
between two addresses of the frame, and outside it. -/

namespace Sys2Proof.Machine

/-- Settles O35: no level precedes address 0, and none is in the history of reset. -/
theorem referenceInvariantHoldsAtReset : Obligations.ReferenceInvariantHoldsAtReset :=
  ⟨invariantHoldsAtReset, rfl, .inl rfl, rfl⟩

/-- Any tick without reset between addresses 1 and 81 of the reference program, listed or not: the clock takes the entry's level, and
`upc` goes on by one. -/
theorem step_inside_frame {s : State} (hp : s.cfg.uprog = referenceUprog) (he : s.en = true) (hr : s.rstNow = false)
    (h1 : 1 ≤ s.upc.toNat) (h81 : s.upc.toNat ≤ 81) :
    ∃ w t, referenceUprog[s.upc.toNat]? = some w ∧ step s = .next t ∧ t.upc.toNat = s.upc.toNat + 1 ∧ t.en = true
      ∧ t.clk = Entry.clk w := by
  have hnext := nextUpc_reference_inside hp h81
  obtain ⟨w, hw, hd⟩ := reference_entry_inside ⟨s.upc.toNat, by omega⟩ h1
  have hf {i : Instr} (hi : decode w = i) : fetch s = .ok i := fetch_eq_ok.2 ⟨w, by rw [hp]; exact hw, hi⟩
  refine ⟨w, ?_⟩
  obtain ⟨hd, -⟩ | ⟨hd, -⟩ := hd
  · exact ⟨_, hw, by rw [step_of_fetch hr he (hf hd), exec_hold, mapNext], by simp [hnext], by simp [he], by simp⟩
  · exact ⟨_, hw, by rw [step_of_fetch hr he (hf hd), exec_sample, mapNext], by simp [hnext], by simp [he], by simp⟩

/-- Settles O38. -/
theorem frameIsNeverInterrupted : Obligations.FrameIsNeverInterrupted := by
  intro s hp he hr h1 h81
  obtain ⟨w, t, -, hstep, hupc, hen, -⟩ := step_inside_frame hp he hr h1 h81
  exact ⟨t, hstep, hupc, hen⟩

theorem nextUpc_reference_first {s : State} (hp : s.cfg.uprog = referenceUprog) (hu : s.upc = 0#7) : nextUpc s = 1#7 := by
  rw [nextUpc, hp, hu]; rfl

theorem nextUpc_reference_last {s : State} (hp : s.cfg.uprog = referenceUprog) (hu : s.upc = 82#7) : nextUpc s = 0#7 := by
  rw [nextUpc, hp, hu]; rfl

/-- Outside the frame, in reset and idle ticks and at addresses 0 and 82, the clock is low, and the tick ends at address 0, 1 or 82. -/
theorem step_outside_frame {s t : State} (hinv : s.Inv) (hp : s.cfg.uprog = referenceUprog) (h : step s = .next t)
    (hout : s.rstNow = true ∨ s.en = false ∨ s.upc = 0#7 ∨ s.upc = 82#7) :
    t.clk = 0#1 ∧ (t.upc = 0#7 ∨ t.upc = 1#7 ∨ t.upc = 82#7) := by
  obtain ⟨-, -, -, hidle, -⟩ := hinv
  obtain ⟨-, rfl⟩ | ⟨-, he, rfl⟩ | ⟨hr, he, -⟩ := step_cases h
  · simp [resetTick]
  · obtain ⟨hu, -⟩ := hidle he
    simp [idleTick, hu]
  · have hu : s.upc = 0#7 ∨ s.upc = 82#7 := by simpa [hr, he] using hout
    have hstay := step_upc_cases h
    obtain ⟨w, hw, hclk⟩ := step_clk_of_running h hr he
    rw [hp] at hw
    obtain hu | hu := hu
    · rw [hu] at hw hstay
      rw [nextUpc_reference_first hp hu] at hstay
      cases hw
      exact ⟨hclk, by tauto⟩
    · rw [hu] at hw hstay
      rw [nextUpc_reference_last hp hu] at hstay
      cases hw
      exact ⟨hclk, by tauto⟩

theorem highRun_pos_iff (l : List Level) : 0 < highRun l ↔ l.headD 0#1 = 1#1 := by
  cases l with
  | nil => decide
  | cons c l => rw [highRun_cons, List.headD_cons]; split_ifs with hc <;> simp [hc]

/-- A low level ends the high run. -/
theorem highRun_of_low (l : List Level) : highRun (0#1 :: l) = 0 := by
  rw [highRun_cons, if_neg (by decide)]

/-- Inside the frame a high level is preceded by at most one high level. -/
theorem highRun_below_high_entry : ∀ a : Fin 82, ∀ w, referenceUprog[a.val]? = some w → Entry.clk w = 1#1 →
    highRun (referenceLevelsBelow a.val) ≤ 1 := by
  decide

/-- Inside the frame the clock's last high run is the program's before `upc`, one entry longer after the tick. -/
theorem highRun_cons_inside_frame {l : List Level} {a : Nat} {w : Entry} (hw : referenceUprog[a]? = some w)
    (hl : highRun l = highRun (referenceLevelsBelow a)) :
    highRun (Entry.clk w :: l) = highRun (referenceLevelsBelow (a + 1)) := by
  rw [referenceLevelsBelow_succ hw, highRun_cons, highRun_cons, hl]

/-- Settles O36: a tick inside the frame lengthens the program's levels and the clock's history by the same level; any other tick ends
the high run. -/
theorem everyStepKeepsTheReferenceInvariant : Obligations.EveryStepKeepsTheReferenceInvariant := by
  intro s t ⟨hinv, hp, hrun, hthree⟩ h
  have hinv' := everyStepKeepsTheInvariant s t hinv h
  have hp' : t.cfg.uprog = referenceUprog := by rw [step_cfg h, hp]
  obtain ⟨hhistory, -⟩ := everyTickRecordsItsClockLevel s t h
  refine ⟨hinv', hp', ?_⟩
  rw [hhistory]
  by_cases hout : s.rstNow = true ∨ s.en = false ∨ s.upc = 0#7 ∨ s.upc = 82#7
  · obtain ⟨hclk, hupc⟩ := step_outside_frame hinv hp h hout
    rw [hclk, highRun_of_low]
    refine ⟨?_, noThreeHighs_cons hthree fun hhigh => absurd hhigh (by decide)⟩
    obtain hu | hu | hu := hupc
    · exact .inl (by rw [hu]; decide)
    · exact .inl (by rw [hu]; decide)
    · exact .inr ⟨hu, rfl⟩
  · simp only [not_or, Bool.not_eq_true, Bool.not_eq_false] at hout
    obtain ⟨hr, he, h0, h82⟩ := hout
    obtain ⟨-, hlt, -⟩ := hinv
    have hlength : s.cfg.uprog.length = 83 := by rw [hp]; rfl
    have hbounds : 1 ≤ s.upc.toNat ∧ s.upc.toNat ≤ 81 := by
      have h0' : s.upc.toNat ≠ 0 := fun hz => h0 (BitVec.eq_of_toNat_eq hz)
      have h82' : s.upc.toNat ≠ 82 := fun hz => h82 (BitVec.eq_of_toNat_eq hz)
      omega
    obtain ⟨w, t', hw, hstep, hupc, -, hclk⟩ := step_inside_frame hp he hr hbounds.1 hbounds.2
    rw [h] at hstep
    cases hstep
    have hlast := hrun.resolve_right fun hstall => h82 hstall.1
    rw [hclk, hupc]
    refine ⟨.inl (highRun_cons_inside_frame hw hlast), noThreeHighs_cons hthree fun hhigh => ?_⟩
    rw [hlast]
    exact highRun_below_high_entry ⟨s.upc.toNat, by omega⟩ w hw hhigh

/-- A SAMPLE of the reference program has the level of the entry before it. -/
theorem sample_level_eq_level_below : ∀ a : Fin 83, ∀ w, referenceUprog[a.val]? = some w → Entry.op w = 2#2 →
    a.val ≠ 82 ∧ (0 < highRun (referenceLevelsBelow a.val) ↔ Entry.clk w = 1#1) := by
  decide

theorem level_eq_of_eq_one_iff : ∀ a b : Level, (a = 1#1 ↔ b = 1#1) → a = b := by decide

/-- Settles O37: the clock's level is whether its last high run is not empty, and at a SAMPLE that run is the program's before it. -/
theorem noReadCoincidesWithAClockEdge : Obligations.NoReadCoincidesWithAClockEdge := by
  intro s w c ⟨hinv, hp, hrun, _⟩ he hw hd
  obtain ⟨-, hlt, -, -, hclk⟩ := hinv
  rw [hp] at hw hlt
  obtain ⟨-, -, hop, -⟩ := op_of_decode w c
  obtain ⟨h82, hlevel⟩ := sample_level_eq_level_below ⟨s.upc.toNat, hlt⟩ w hw (hop hd)
  have hlast := hrun.resolve_right fun hstall => h82 (congrArg BitVec.toNat hstall.1)
  have hc : Entry.clk w = c := by
    obtain hk | hk | hk | hk := decode_clk w <;> rw [hk] at hd <;> cases hd
    rfl
  rw [← hlast, highRun_pos_iff, ← hclk, hc] at hlevel
  exact level_eq_of_eq_one_iff s.clk c hlevel

end Sys2Proof.Machine
end

section
/-! PROOFS. The tick as the meaning of its parts (spec/40_microops.md section 1): the host phase and the running step. -/

namespace Sys2Proof.Machine

theorem exec_start (s : State) : exec .start s = .next { s with en := true } := rfl

theorem exec_push_of_full {c : Level} {s : State} (hq : s.fifo.length = s.cfg.fifoDepth) :
    exec (.push c) s = .next { s with clk := c } := by
  rw [exec_push, if_pos hq]

theorem exec_push_of_room {c : Level} {s : State} (hq : s.fifo.length ≠ s.cfg.fifoDepth) :
    exec (.push c) s = .next { s with clk := c, fifo := s.fifo ++ [s.sr], upc := nextUpc s } := by
  rw [exec_push, if_neg hq]

/-- Settles O9: START's equation; on an enabled engine it writes what is there; the idle tick by O14. -/
theorem startEnablesFromTheNextTick : Obligations.StartEnablesFromTheNextTick := by
  refine ⟨rfl, exec_start, fun s he => by rw [exec_start, ← he], fun s hr he hstart => ?_⟩
  obtain ⟨t, hstep, hen, hclk, hupc, hsr, -⟩ := idleTickOnlyAppliesHostRequests s hr he
  exact ⟨t, hstep, hen.trans hstart, hupc, hclk, hsr⟩

/-- Settles O16: the tick's end is the two updates around `exec`. -/
theorem stepRunsTheDecodedInstruction : Obligations.StepRunsTheDecodedInstruction := by
  intro s w hr he hw
  exact ⟨decode_isMicroOp w, step_of_fetch hr he (fetch_eq_ok.2 ⟨w, hw, rfl⟩)⟩

/-- Settles O17: the state between the two requests is the one after the POP part. -/
theorem hostPhaseIsPopThenStart : Obligations.HostPhaseIsPopThenStart := by
  intro s
  refine ⟨popPhase s, ?_, ?_⟩
  · rw [popPhase]
    cases s.popNow <;> rfl
  · rw [hostPhase]
    cases s.startNow <;> rfl

end Sys2Proof.Machine
end

section
/-! PROOFS. What `sr`, the data line and the model's own fields do not show in (spec/10_state.md section 2, spec/20_memory.md section 3,
spec/40_microops.md section 6). -/

namespace Sys2Proof.Machine

/-- Settles O24: of the kinds of tick only the reset and the SAMPLE write `sr`. -/
theorem srIsWrittenOnlyBySampleAndReset : Obligations.SrIsWrittenOnlyBySampleAndReset := by
  intro s t h hne
  obtain ⟨hr, rfl⟩ | ⟨-, -, rfl⟩ | ⟨hr, he, -⟩ := step_cases h
  · exact .inl ⟨hr, rfl⟩
  · exact absurd (hostPhase_sr s) hne
  · obtain ⟨w, c, hw, -, ⟨-, -, rfl⟩ | ⟨-, -, rfl⟩ | ⟨-, rfl⟩ | ⟨hd, rfl⟩ | ⟨-, -, rfl⟩ | ⟨-, -, rfl⟩⟩ :=
      step_running_cases hr he h
    · simp at hne
    · simp at hne
    · simp at hne
    · exact .inr ⟨w, c, he, hw, hd, by simp⟩
    · simp at hne
    · simp at hne

/-- Two states that take the same kind of tick have the same outcome in what `f` shows of it, if the two reset ticks have, the two idle
ticks, and the fetched operation at the two host phases. -/
theorem mapNext_step_congr {f : State → State} {s t : State} (hr : t.rstNow = s.rstNow) (he : t.en = s.en) (hf : fetch t = fetch s)
    (hreset : f (resetTick t) = f (resetTick s)) (hidle : s.rstNow = false → s.en = false → f (idleTick t) = f (idleTick s))
    (hexec : ∀ i, s.rstNow = false → s.en = true → fetch s = .ok i →
      mapNext f (mapNext State.endTick (exec i (hostPhase t))) = mapNext f (mapNext State.endTick (exec i (hostPhase s)))) :
    mapNext f (step t) = mapNext f (step s) := by
  cases hrs : s.rstNow with
  | true => rw [step_of_rst hrs, step_of_rst (hr.trans hrs), mapNext, mapNext, hreset]
  | false =>
    cases hes : s.en with
    | false => rw [step_of_idle hrs hes, step_of_idle (hr.trans hrs) (he.trans hes), mapNext, mapNext, hidle hrs hes]
    | true =>
      cases hfs : fetch s with
      | error r => rw [step_of_outside hrs hes hfs, step_of_outside (hr.trans hrs) (he.trans hes) (hf.trans hfs)]
      | ok i => rw [step_of_fetch hrs hes hfs, step_of_fetch (hr.trans hrs) (he.trans hes) (hf.trans hfs), hexec i hrs hes hfs]

/-! ### The shift register -/

/-- The state with another shift register. -/
def State.withSr (x : Word) (s : State) : State :=
  { s with sr := x }

theorem hostPhase_withSr (s : State) (x : Word) : hostPhase (s.withSr x) = (hostPhase s).withSr x := by
  rw [hostPhase_eq, hostPhase_eq]; rfl

theorem mapNext_withSr_endTick (x : Word) (r : Result) :
    mapNext (State.withSr x) (mapNext State.endTick r) = mapNext State.endTick (mapNext (State.withSr x) r) := by
  cases r <;> rfl

/-- An operation that appends no word shows nothing of `sr` but in `sr`. -/
theorem exec_withSr {i : Instr} {s : State} (x y : Word) (hpush : ∀ c, i = .push c → s.fifo.length = s.cfg.fifoDepth) :
    mapNext (State.withSr y) (exec i (s.withSr x)) = mapNext (State.withSr y) (exec i s) := by
  cases i with
  | wait c => rw [exec_wait, exec_wait]; rfl
  | hold c => rfl
  | sample c => rfl
  | push c =>
    have hfull := hpush c rfl
    rw [exec_push_of_full hfull, exec_push_of_full (s := s.withSr x) hfull]; rfl
  | start => rfl
  | pop => rfl

/-- Settles O25: a tick that pushes nothing is not a PUSH with room, and no other tick reads `sr`. -/
theorem srShowsOnlyThroughPush : Obligations.SrShowsOnlyThroughPush := by
  intro s x hnone
  have hidle : (idleTick (s.withSr x)).withSr 0#32 = (idleTick s).withSr 0#32 := by
    rw [idleTick, idleTick, hostPhase_withSr]; rfl
  refine mapNext_step_congr (f := State.withSr 0#32) (s := s) (t := s.withSr x) rfl rfl rfl rfl (fun _ _ => hidle) fun i hr he hf => ?_
  have hpush : ∀ c, i = .push c → (hostPhase s).fifo.length = (hostPhase s).cfg.fifoDepth := by
    rintro c rfl
    rw [pushedNow_of_fetch hr he hf] at hnone
    simpa [-hostPhase_fifo] using hnone
  rw [hostPhase_withSr, mapNext_withSr_endTick, mapNext_withSr_endTick, exec_withSr x 0#32 hpush]

/-! ### The inputs, the clock's history and the delivered word -/

/-- The state with other values of the model's own fields (log entries 1 to 3). -/
def State.withOwnFields (s : State) (inputs : List TickInput) (history : List Level) (delivered : Option Word) : State :=
  { s with inputs := inputs, clkHistory := history, delivered := delivered }

section
variable {s : State} {inputs : List TickInput} {history : List Level} {delivered : Option Word}

/-- The host phase reads the tick's requests, and replaces the delivered word. -/
theorem hostPhase_withOwnFields (hpop : (s.withOwnFields inputs history delivered).popNow = s.popNow)
    (hstart : (s.withOwnFields inputs history delivered).startNow = s.startNow) :
    hostPhase (s.withOwnFields inputs history delivered) = (hostPhase s).withOwnFields inputs history (hostPhase s).delivered := by
  rw [hostPhase_eq, hostPhase_eq, hpop, hstart]; rfl

theorem idleTick_withOwnFields (hpop : (s.withOwnFields inputs history delivered).popNow = s.popNow)
    (hstart : (s.withOwnFields inputs history delivered).startNow = s.startNow) :
    idleTick (s.withOwnFields inputs history delivered)
      = (idleTick s).withOwnFields inputs.tail (0#1 :: history) (hostPhase s).delivered := by
  rw [idleTick, idleTick, hostPhase_withOwnFields hpop hstart]; rfl

theorem mapNext_architectural_endTick (r : Result) :
    mapNext State.architectural (mapNext State.endTick r) = mapNext State.architectural r := by
  cases r <;> rfl

/-- An operation reads the inputs and the clock's history through the data line only. -/
theorem exec_withOwnFields (i : Instr) (hdata : ∀ c, ((s.withOwnFields inputs history s.delivered).clkOut c).dataIn = (s.clkOut c).dataIn) :
    mapNext State.architectural (exec i (s.withOwnFields inputs history s.delivered)) = mapNext State.architectural (exec i s) := by
  cases i with
  | wait c => rw [exec_wait, exec_wait, hdata]; rfl
  | hold c => rfl
  | sample c => rw [exec_sample, exec_sample, hdata]; rfl
  | push c =>
    by_cases hq : s.fifo.length = s.cfg.fifoDepth
    · rw [exec_push_of_full hq, exec_push_of_full (s := s.withOwnFields inputs history s.delivered) hq]; rfl
    · rw [exec_push_of_room hq, exec_push_of_room (s := s.withOwnFields inputs history s.delivered) hq]; rfl
  | start => rfl
  | pop => rfl

end

theorem eq_withOwnFields {s t : State}
    (h : ({ s with delivered := none } : State).architectural = ({ t with delivered := none } : State).architectural) :
    s = t.withOwnFields s.inputs s.clkHistory s.delivered := by
  cases s; cases t
  simpa [State.architectural, State.withOwnFields] using h

/-- Settles O28: `s` is `t` with other values of the model's own fields, and the two list the same inputs for this tick. -/
theorem tickDependsOnStateAndItsInputsOnly : Obligations.TickDependsOnStateAndItsInputsOnly := by
  intro s t i rs rt hs ht harch
  rw [eq_withOwnFields harch, hs]
  generalize s.clkHistory = history, s.delivered = delivered
  have hpop : (t.withOwnFields (i :: rs) history delivered).popNow = t.popNow := (State.popNow_of_inputs ht).symm
  have hstart : (t.withOwnFields (i :: rs) history delivered).startNow = t.startNow := (State.startNow_of_inputs ht).symm
  have hdata (c : Level) : (((hostPhase t).withOwnFields (i :: rs) history (hostPhase t).delivered).clkOut c).dataIn
      = ((hostPhase t).clkOut c).dataIn :=
    (State.dataIn_of_inputs (i := i) (rest := rt) (by simpa using ht)).symm
  refine mapNext_step_congr (State.rstNow_of_inputs ht).symm rfl rfl rfl (fun _ _ => ?_) fun j _ _ _ => ?_
  · rw [idleTick_withOwnFields hpop hstart]; rfl
  · rw [hostPhase_withOwnFields hpop hstart, mapNext_architectural_endTick, mapNext_architectural_endTick, exec_withOwnFields j hdata]

/-- Two states whose clock histories, deliveries and further inputs agree end the tick alike. -/
theorem endTick_withOwnFields {u : State} {inputs : List TickInput} (htail : inputs.tail = u.inputs.tail) :
    (u.withOwnFields inputs u.clkHistory u.delivered).endTick = u.endTick := by
  simp only [State.endTick, State.withOwnFields, htail]

/-- HOLD and PUSH keep the inputs, and read none of them. -/
theorem endTick_exec_withOwnFields {s : State} {i : Instr} {inputs : List TickInput} (htail : inputs.tail = s.inputs.tail)
    (hi : ∃ c, i = .hold c ∨ i = .push c) :
    mapNext State.endTick (exec i (s.withOwnFields inputs s.clkHistory s.delivered)) = mapNext State.endTick (exec i s) := by
  obtain ⟨c, rfl | rfl⟩ := hi
  · rw [exec_hold, exec_hold]
    exact congrArg Host.Outcome.next (endTick_withOwnFields (u := { s with clk := c, upc := nextUpc s }) htail)
  · by_cases hq : s.fifo.length = s.cfg.fifoDepth
    · rw [exec_push_of_full hq, exec_push_of_full (s := s.withOwnFields inputs s.clkHistory s.delivered) hq]
      exact congrArg Host.Outcome.next (endTick_withOwnFields (u := { s with clk := c }) htail)
    · rw [exec_push_of_room hq, exec_push_of_room (s := s.withOwnFields inputs s.clkHistory s.delivered) hq]
      exact congrArg Host.Outcome.next
        (endTick_withOwnFields (u := { s with clk := c, fifo := s.fifo ++ [s.sr], upc := nextUpc s }) htail)

theorem mapNext_id (r : Result) : mapNext id r = r := by
  cases r <;> rfl

/-- A tick that neither waits nor samples is the same with other inputs in it, if reset and the host's requests are the same, and the inputs
after it. -/
theorem step_withOwnFields {s : State} {inputs : List TickInput} (htail : inputs.tail = s.inputs.tail)
    (hrst : (s.withOwnFields inputs s.clkHistory s.delivered).rstNow = s.rstNow)
    (hpop : (s.withOwnFields inputs s.clkHistory s.delivered).popNow = s.popNow)
    (hstart : (s.withOwnFields inputs s.clkHistory s.delivered).startNow = s.startNow)
    (hkind : ∀ i, s.rstNow = false → s.en = true → fetch s = .ok i → ∃ c, i = .hold c ∨ i = .push c) :
    step (s.withOwnFields inputs s.clkHistory s.delivered) = step s := by
  have hhost := hostPhase_withOwnFields hpop hstart
  rw [← hostPhase_clkHistory] at hhost
  rw [← hostPhase_inputs s] at htail
  have hidle : idleTick (s.withOwnFields inputs s.clkHistory s.delivered) = idleTick s := by
    rw [idleTick, ← hostPhase_clkHistory, hhost]
    exact endTick_withOwnFields (u := (hostPhase s).clkOut 0#1) htail
  have hreset : resetTick (s.withOwnFields inputs s.clkHistory s.delivered) = resetTick s :=
    endTick_withOwnFields (u := s.applyReset) (inputs := inputs) (by simpa using htail)
  rw [← mapNext_id (step s), ← mapNext_id (step (s.withOwnFields _ _ _))]
  refine mapNext_step_congr hrst rfl rfl hreset (fun _ _ => hidle) fun i hr he hf => ?_
  rw [← hostPhase_clkHistory, hhost, endTick_exec_withOwnFields htail (hkind i hr he hf)]

/-- Settles O27: the two ticks differ in the data line's level alone. -/
theorem dataLineIsIgnoredOutsideWaitAndSample : Obligations.DataLineIsIgnoredOutsideWaitAndSample := by
  intro s i d rest hkind
  refine (step_withOwnFields (s := { s with inputs := i :: rest }) (inputs := { i with data := d } :: rest) rfl rfl rfl rfl
    fun j hr he hf => ?_).symm
  obtain hen | hrst | ⟨w, c, hw, hd⟩ := hkind
  · exact absurd (hen.symm.trans he) (by decide)
  · exact absurd (hrst.symm.trans hr) (by decide)
  · have hj : decode w = j := Except.ok.inj ((fetch_eq_ok.2 ⟨w, hw, rfl⟩).symm.trans hf)
    exact ⟨c, hj ▸ hd⟩

end Sys2Proof.Machine
end

section
/-! PROOFS. The opcode map and the reference program, by computation (spec/30_encoding.md sections 2, 4 and 6). -/

namespace Sys2Proof

/-- Settles O1: the nine numbers, the eight entries and the 83 addresses. -/
theorem eightEntryValuesDecodeAsTheMapSays : Obligations.EightEntryValuesDecodeAsTheMapSays := by
  refine ⟨by decide, by decide, by decide⟩

/-- Settles O4: the listing's expansion, the entries by address, and the counts. -/
theorem referenceProgramIsItsListing : Obligations.ReferenceProgramIsItsListing := by
  unfold Obligations.ReferenceProgramIsItsListing
  decide

end Sys2Proof
end

section
/-! PROOFS. A table word where the fetch finds it (log entries 7 and 9). -/

namespace Sys2Proof.Machine

theorem romWith_getElem?_some (rom : List Entry) (a : Nat) (e : Entry) : (romWith rom a (some e))[a]? = some e := by
  have hlength : (rom.take a ++ List.replicate (a - rom.length) 0#3).length = a := by
    rw [List.length_append, List.length_take, List.length_replicate]; omega
  rw [romWith, List.append_assoc, List.getElem?_append_right hlength.le, hlength]
  simp

theorem romWith_none_length_le (rom : List Entry) (a : Nat) : (romWith rom a none).length ≤ a :=
  List.length_take_le a rom

theorem rstNow_withFetchWord (s : State) (nbits w : Nat) : (s.withFetchWord nbits w).rstNow = false := by
  cases h : s.inputs <;> simp [State.withFetchWord, State.rstNow, withoutReset, h]

theorem decodeTableWord_eq_none {nbits w : Nat} : decodeTableWord nbits w = none ↔ nbits < 3 ∨ 8 ≤ w := by
  rw [Option.eq_none_iff_forall_ne_some]
  constructor
  · intro h
    by_contra hentry
    exact h _ (decodeTableWord_eq_some.2 ⟨by omega, by omega, rfl⟩)
  · rintro hout i hi
    obtain ⟨h3, h8, -⟩ := decodeTableWord_eq_some.1 hi
    omega

/-- Settles O51: a word that decodes is the ROM's entry at `upc`; one that does not leaves the ROM without an entry there. -/
theorem placedTableWordIsRunByTheNextStep : Obligations.PlacedTableWordIsRunByTheNextStep := by
  intro s nbits w
  have hr := rstNow_withFetchWord s nbits w
  refine ⟨fun i hi => step_of_fetch hr rfl (fetch_eq_ok.2 ?_), fun hnone => step_of_outside hr rfl (fetch_eq_error.2 ⟨?_, rfl⟩)⟩
  · obtain ⟨h3, h8, hdecode⟩ := decodeTableWord_eq_some.1 hi
    refine ⟨BitVec.ofNat 3 w, ?_, hdecode⟩
    rw [State.withFetchWord, if_neg (by omega), if_pos h8]
    exact romWith_getElem?_some _ _ _
  · have hno : (if nbits < 3 then none else if w < 8 then some (BitVec.ofNat 3 w) else none) = none := by
      obtain h3 | h8 := decodeTableWord_eq_none.1 hnone
      · rw [if_pos h3]
      · rw [if_neg (by omega : ¬w < 8), ite_self]
    rw [State.withFetchWord, hno]
    exact romWith_none_length_le _ _

end Sys2Proof.Machine
end

section
/-! PROOFS. Several engines (spec/60_exceptions.md section 7): their common tick is each engine's own. -/

namespace Sys2Proof.Machine

theorem stepEach_cons_eq_next {s : State} {rest ts : List State} :
    stepEach (s :: rest) = .next ts ↔ ∃ t us, step s = .next t ∧ stepEach rest = .next us ∧ ts = t :: us := by
  rw [stepEach]
  cases step s <;> cases stepEach rest <;> simp [eq_comm]

theorem stepEach_eq_next_iff (ss ts : List State) : stepEach ss = .next ts ↔ List.Forall₂ (fun s t => step s = .next t) ss ts := by
  induction ss generalizing ts with
  | nil => simp [stepEach, eq_comm]
  | cons s rest ih => simp only [stepEach_cons_eq_next, List.forall₂_cons_left_iff, ih]

/-- Settles O50: `pinsExclusive` decides whether two engines have a pin in common, and without one the engines step each by itself. -/
theorem enginesOnSharedPinsAreRefused : Obligations.EnginesOnSharedPinsAreRefused := by
  intro ss
  simp only
  rw [← List.pairwise_map (f := State.cfg) (R := fun a b => a.clockPin ≠ b.clockPin ∧ a.clockPin ≠ b.dataPin
      ∧ a.dataPin ≠ b.clockPin ∧ a.dataPin ≠ b.dataPin), ← pinsExclusive_iff]
  refine ⟨fun hshared => by rw [systemStep, if_neg hshared], fun hown ts => ?_⟩
  rw [systemStep, if_pos hown]
  exact stepEach_eq_next_iff ss ts

end Sys2Proof.Machine
end

section
/-! PROOFS. Runs that stay where they are: a WAIT on a high line, a PUSH on a full queue, an idle engine (spec/60_exceptions.md section 1,
spec/70_reset_and_hazards.md section 1). -/

namespace Sys2Proof.Machine

/-- A WAIT stays in every listed tick with the line high, by induction on those ticks. -/
theorem ticks_wait_stalled {c : Level} {rest : List TickInput} (high : List TickInput) (s : State) (he : s.en = true)
    (hf : fetch s = .ok (.wait c)) (hi : s.inputs = high ++ rest) (hhigh : ∀ i ∈ high, i.rst = false ∧ i.data = 1#1) :
    ∃ t, ticks high.length s = .next t ∧ t.upc = s.upc ∧ t.en = true ∧ t.sr = s.sr ∧ t.inputs = rest
      ∧ t.clkHistory = List.replicate high.length c ++ s.clkHistory
      ∧ t.fifo = s.fifo.drop (high.countP (fun i => i.pop)) := by
  induction high generalizing s with
  | nil => exact ⟨s, rfl, rfl, he, rfl, hi, rfl, rfl⟩
  | cons i l ih =>
    obtain ⟨⟨hr, hd⟩, hl⟩ := List.forall_mem_cons.1 hhigh
    have hstep := step_wait_stall (rest := l ++ rest) hi hr he hf hd
    obtain ⟨t, hrun, hupc, hen, hsr, hinputs, hhistory, hfifo⟩ := ih ((hostPhase s).clkOut c).endTick (by simp [he])
      ((fetch_congr (by simp) (by simp)).trans hf) (by simp [hi]) hl
    refine ⟨t, by rw [List.length_cons, ticks_succ_of_step hstep, hrun], by simpa using hupc, hen, by simpa using hsr, hinputs, ?_, ?_⟩
    · rw [hhistory]; simp [List.replicate_succ']
    · rw [hfifo]
      cases hp : i.pop <;> simp [State.popNow_of_inputs hi, hp]

/-- Settles O48. -/
theorem waitHasNoTimeout : Obligations.WaitHasNoTimeout :=
  fun s w _ high _ he hw hd hi hhigh => ticks_wait_stalled high s he (fetch_eq_ok.2 ⟨w, hw, hd⟩) hi hhigh

/-- A PUSH on a full queue stays in every listed tick without a POP, by induction on those ticks; with no tick the queue need not be full. -/
theorem ticks_push_stalled {c : Level} {rest : List TickInput} (busy : List TickInput) (s : State) (he : s.en = true)
    (hf : fetch s = .ok (.push c)) (hq : busy = [] ∨ s.fifo.length = s.cfg.fifoDepth) (hi : s.inputs = busy ++ rest)
    (hbusy : ∀ i ∈ busy, i.rst = false ∧ i.pop = false) :
    ∃ t, ticks busy.length s = .next t ∧ t.upc = s.upc ∧ t.en = true ∧ t.sr = s.sr ∧ t.fifo = s.fifo ∧ t.inputs = rest
      ∧ t.clkHistory = List.replicate busy.length c ++ s.clkHistory := by
  induction busy generalizing s with
  | nil => exact ⟨s, rfl, rfl, he, rfl, rfl, hi, rfl⟩
  | cons i l ih =>
    obtain ⟨⟨hr, hp⟩, hl⟩ := List.forall_mem_cons.1 hbusy
    have hfull : s.fifo.length = s.cfg.fifoDepth := hq.resolve_left (List.cons_ne_nil i l)
    have hhost : (hostPhase s).fifo = s.fifo := by simp [State.popNow_of_inputs hi, hp]
    have hstep := step_push_stall (rest := l ++ rest) hi hr he hf (by rw [hhost, hfull])
    obtain ⟨t, hrun, hupc, hen, hsr, hfifo, hinputs, hhistory⟩ := ih ((hostPhase s).clkOut c).endTick (by simp [he])
      ((fetch_congr (by simp) (by simp)).trans hf) (.inr (by simp [hhost, hfull, -hostPhase_fifo])) (by simp [hi]) hl
    refine ⟨t, by rw [List.length_cons, ticks_succ_of_step hstep, hrun], by simpa using hupc, hen, by simpa using hsr, hfifo.trans hhost,
      hinputs, ?_⟩
    rw [hhistory]; simp [List.replicate_succ']

/-- Settles O49. -/
theorem fullQueueStallsPushForEver : Obligations.FullQueueStallsPushForEver :=
  fun s w _ busy _ he hw hd hfull hi hbusy => ticks_push_stalled busy s he (fetch_eq_ok.2 ⟨w, hw, hd⟩) (.inr hfull) hi hbusy

/-- One listed tick of an idle engine that meets the invariant: as reset leaves it, and enabled if START was requested. -/
theorem step_listed_idle {s : State} {i : TickInput} {rest : List TickInput} (hinv : s.Inv) (he : s.en = false) (hi : s.inputs = i :: rest)
    (hr : i.rst = false) :
    ∃ t, step s = .next t ∧ t.Inv ∧ t.en = i.start ∧ t.upc = 0#7 ∧ t.sr = 0#32 ∧ t.fifo = [] ∧ t.inputs = rest ∧ t.cfg = s.cfg
      ∧ t.clkHistory = 0#1 :: s.clkHistory := by
  obtain ⟨t, hstep, hen, hclk, hupc, hsr, hcfg, hfifo, -⟩ :=
    idleTickOnlyAppliesHostRequests s ((State.rstNow_of_inputs hi).trans hr) he
  obtain ⟨hhistory, hinputs⟩ := everyTickRecordsItsClockLevel s t hstep
  have ⟨_, _, _, hidle, _⟩ := hinv
  obtain ⟨hupc0, -, hsr0, hfifo0⟩ := hidle he
  rw [hfifo0, List.tail_nil, ite_self] at hfifo
  exact ⟨t, hstep, everyStepKeepsTheInvariant s t hinv hstep, hen.trans (State.startNow_of_inputs hi), hupc.trans hupc0,
    hsr.trans hsr0, hfifo, by rw [hinputs, hi, List.tail_cons], hcfg, by rw [hhistory, hclk]⟩

/-- Settles O39: by induction on the idle ticks; the tick of START is the last. -/
theorem firstMicroOpAfterStartIsAtAddressZero : Obligations.FirstMicroOpAfterStartIsAtAddressZero := by
  intro s idle go rest hinv hp he hi hidle hgo hstart
  induction idle generalizing s with
  | nil =>
    obtain ⟨t, hstep, -, hen, hupc, hsr, hfifo, hinputs, hcfg, hhistory⟩ := step_listed_idle hinv he hi hgo
    have hfetch : fetch t = .ok (.wait 0#1) := fetch_eq_ok.2 ⟨0, by rw [hcfg, hp, hupc]; rfl, rfl⟩
    exact ⟨t, by rw [List.length_nil, ticks_succ_of_step hstep, ticks_zero], hen.trans hstart, hupc, hsr, hfifo, hinputs, hhistory, hfetch⟩
  | cons i l ih =>
    obtain ⟨⟨hr, hnostart⟩, hl⟩ := List.forall_mem_cons.1 hidle
    obtain ⟨u, hstep, huinv, huen, -, -, -, huinputs, hucfg, huhistory⟩ := step_listed_idle hinv he hi hr
    obtain ⟨t, hrun, hen, hupc, hsr, hfifo, hinputs, hhistory, hfetch⟩ :=
      ih u huinv (by rw [hucfg, hp]) (huen.trans hnostart) huinputs hl
    refine ⟨t, by rw [List.length_cons, ticks_succ_of_step hstep, hrun], hen, hupc, hsr, hfifo, hinputs, ?_, hfetch⟩
    rw [hhistory, huhistory, List.length_cons, List.replicate_succ' (n := l.length + 1)]
    simp

end Sys2Proof.Machine
end

section
/-! PROOFS. The shift register over many shift-inserts (spec/40_microops.md section 4, corner case (a)). -/

namespace Sys2Proof.Machine

/-- Settles O46: after 32 or more shift-inserts every bit is one of those shifted in. -/
theorem thirtyTwoShiftsForgetTheOldContents : Obligations.ThirtyTwoShiftsForgetTheOldContents := by
  intro x y bits hlength
  refine BitVec.eq_of_getLsbD_eq fun i hi => ?_
  have hin : i < bits.length := by omega
  rw [getLsbD_foldl_shiftInsert bits x i hi, getLsbD_foldl_shiftInsert bits y i hi, if_pos hin, if_pos hin]

end Sys2Proof.Machine
end

section
/-! PROOFS. The frame cycle of the reference program up to its PUSH (spec/41_frame_cycle.md sections 1 to 3): the run, its 32 reads, its clock. -/

namespace Sys2Proof.Machine

/-- The tick `T0` and the frame after it, from address 0 to address 82, in listed ticks. -/
theorem ticks_ready_frame {s : State} {ready : TickInput} {frame rest : List TickInput} (hp : s.cfg.uprog = referenceUprog)
    (he : s.en = true) (hu : s.upc = 0#7) (hi : s.inputs = ready :: (frame ++ rest)) (hready : ready.rst = false ∧ ready.data = 0#1)
    (hlength : frame.length = 81) (hframe : ∀ i ∈ frame, i.rst = false) :
    ∃ t, ticks 82 s = .next t ∧ t.upc = 82#7 ∧ t.en = true ∧ t.inputs = rest
      ∧ t.sr = (sampledFrom 0 (ready :: frame)).foldl shiftInsert s.sr ∧ t.clkHistory = levelsFrom 0 82 ++ s.clkHistory
      ∧ ((∀ i ∈ ready :: frame, i.pop = false) → t.fifo = s.fifo) := by
  have hf : fetch s = .ok (.wait 0#1) := fetch_eq_ok.2 ⟨0, by rw [hp, hu]; rfl, rfl⟩
  have hstep := step_wait_pass hi hready.1 he hf hready.2
  have hnext := nextUpc_reference_first hp hu
  obtain ⟨t, hrun, hupc, hen, -, hinputs, hsr, hhistory, hfifo⟩ := ticks_frame (rest := rest) frame
    ((hostPhase s).clkOut 0#1).advance.endTick (by simp [hp]) (by simp [he]) (by simp [hnext]) (by simp [hnext, hlength]) (by simp [hi])
    hframe
  have hone : ((hostPhase s).clkOut 0#1).advance.endTick.upc.toNat = 1 := by simp [hnext]
  rw [hone, hlength] at hupc hhistory
  rw [hone] at hsr
  refine ⟨t, by rw [ticks_succ_of_step hstep, ← hlength, hrun], BitVec.eq_of_toNat_eq hupc, hen, hinputs, ?_, ?_, fun hpop => ?_⟩
  · rw [hsr]; simp [sampledFrom]; rfl
  · rw [hhistory, levelsFrom_succ (a := 0) (n := 81) (w := 0) rfl]; simp; rfl
  · obtain ⟨hpready, hpframe⟩ := List.forall_mem_cons.1 hpop
    rw [hfifo hpframe]
    simp [State.popNow_of_inputs hi, hpready]

/-- A cycle from its first waiting tick to address 82. -/
theorem ticks_cycle {s : State} {c : CycleInputs} {rest : List TickInput} (h : c.StartsAt s rest) :
    ∃ t, ticks (c.wait.length + 82) s = .next t ∧ t.upc = 82#7 ∧ t.en = true ∧ t.inputs = rest
      ∧ t.sr = (sampledFrom 0 (c.ready :: c.frame)).foldl shiftInsert s.sr
      ∧ t.clkHistory = levelsFrom 0 82 ++ List.replicate c.wait.length 0#1 ++ s.clkHistory
      ∧ ((∀ i ∈ c.all, i.pop = false) → t.fifo = s.fifo) := by
  obtain ⟨-, hp, he, hu, ⟨hwait, hready, hlow, hlength, hframe⟩, hi⟩ := h
  obtain ⟨m, hrun, hmu, hme, hmcfg, hmsr, hmi, hmhistory, -, hmfifo⟩ := ticks_waiting (rest := c.ready :: (c.frame ++ rest)) c.wait s
    hp he hu (by simp [hi, CycleInputs.all]) hwait
  obtain ⟨t, hrun', hupc, hen, hinputs, hsr, hhistory, hfifo⟩ := ticks_ready_frame (by rw [hmcfg, hp]) hme hmu hmi ⟨hready, hlow⟩
    hlength hframe
  refine ⟨t, by rw [ticks_add hrun, hrun'], hupc, hen, hinputs, by rw [hsr, hmsr], by rw [hhistory, hmhistory, List.append_assoc],
    fun hpop => ?_⟩
  obtain ⟨hpwait, hpframe⟩ := List.forall_mem_append.1 hpop
  exact (hfifo hpframe).trans (hmfifo hpwait)

/-- The addresses of the SAMPLEs among `n` addresses of the reference program from address `a`. -/
def sampleAddresses (a n : Nat) : List Nat :=
  (List.range' a n).filter fun b => (referenceUprog[b]?.map Entry.op) = some 2#2

/-- What listed ticks from address `a` sample, by the addresses of the SAMPLEs. -/
theorem map_some_sampledFrom (l : List TickInput) (a : Nat) :
    (sampledFrom a l).map some = (sampleAddresses a l.length).map fun b => (l.map TickInput.data)[b - a]? := by
  induction l generalizing a with
  | nil => rfl
  | cons i l ih =>
    have htail : (sampledFrom (a + 1) l).map some
        = (sampleAddresses (a + 1) l.length).map fun b => ((i :: l).map TickInput.data)[b - a]? := by
      rw [ih]
      refine List.map_congr_left fun b hb => ?_
      have hab : a + 1 ≤ b := (List.mem_range'_1.1 (List.mem_filter.1 hb).1).1
      rw [List.map_cons, show b - a = (b - (a + 1)) + 1 by omega, List.getElem?_cons_succ]
    rw [sampledFrom, List.length_cons, sampleAddresses, List.range'_succ, List.filter_cons]
    simp only [decide_eq_true_eq]
    split_ifs with hsample
    · rw [List.map_cons, List.map_cons, htail, Nat.sub_self]; rfl
    · exact htail

/-- Read number `i` is at the address that is its tick. -/
theorem sampleAddresses_reference : sampleAddresses 0 82 = (List.range 32).map readTick := by decide

/-- The bits a cycle samples, in order: the line in the ticks of the 32 reads. -/
theorem map_some_sampledFrom_cycle {l : List TickInput} (hlength : l.length = 82) :
    (sampledFrom 0 l).map some = (List.range 32).map fun i => (l.map TickInput.data)[readTick i]? := by
  rw [map_some_sampledFrom, hlength, sampleAddresses_reference, List.map_map]
  rfl

theorem getElem?_sampledFrom_cycle {l : List TickInput} (hlength : l.length = 82) {i : Nat} (hi : i < 32) :
    (sampledFrom 0 l)[i]? = (l.map TickInput.data)[readTick i]? := by
  have hread := congrArg (fun bits => bits[i]?) (map_some_sampledFrom_cycle hlength)
  simp only [List.getElem?_map, List.getElem?_range hi, Option.map_some] at hread ⊢
  cases hbit : (sampledFrom 0 l)[i]? with
  | none => simp [hbit] at hread
  | some b => simpa [hbit] using hread

theorem length_sampledFrom_cycle {l : List TickInput} (hlength : l.length = 82) : (sampledFrom 0 l).length = 32 := by
  have hreads := congrArg List.length (map_some_sampledFrom_cycle hlength)
  simpa using hreads

/-- Of 32 bits shifted in, bit number `i` in time lands in bit `31 - i`. -/
theorem getElem?_eq_extractLsb'_foldl_shiftInsert {bits : List Level} (hlength : bits.length = 32) (x : Word) {i : Nat} (hi : i < 32) :
    bits[i]? = some ((bits.foldl shiftInsert x).extractLsb' (31 - i) 1) := by
  have hlt : i < bits.length := by omega
  rw [List.getElem?_eq_getElem hlt, Option.some.injEq]
  refine BitVec.eq_of_getLsbD_eq fun j hj => ?_
  obtain rfl : j = 0 := by omega
  rw [BitVec.getLsbD_extractLsb', getLsbD_foldl_shiftInsert bits x _ (by omega), if_pos (by omega),
    show bits.length - 1 - (31 - i + 0) = i by omega, List.getElem?_eq_getElem hlt]
  rfl

/-- Settles O40: the word is the 32 sampled bits shifted in, and those are the line's levels in the ticks of the reads. -/
theorem cycleWordIsItsThirtyTwoReads : Obligations.CycleWordIsItsThirtyTwoReads := by
  intro s c rest h
  obtain ⟨t, hrun, hupc, hen, hinputs, hsr, -⟩ := ticks_cycle h
  obtain ⟨-, -, -, -, ⟨-, -, -, hframe, -⟩, -⟩ := h
  have hlength : (c.ready :: c.frame).length = 82 := by rw [List.length_cons, hframe]
  refine ⟨t, hrun, hupc, hen, hinputs, fun i hi => ?_⟩
  rw [CycleInputs.line, ← getElem?_sampledFrom_cycle hlength hi, hsr]
  exact getElem?_eq_extractLsb'_foldl_shiftInsert (length_sampledFrom_cycle hlength) s.sr hi

/-! ### The clock of a cycle -/

theorem risingEdges_replicate_low_append (n : Nat) (l : List Level) : risingEdges 0#1 (List.replicate n 0#1 ++ l) = risingEdges 0#1 l := by
  induction n with
  | zero => rfl
  | succ n ih => rw [List.replicate_succ, List.cons_append, risingEdges, ih]; simp

theorem length_levelsFrom_cycle : (levelsFrom 0 82).length = 82 := by decide

/-- The levels of addresses 0 to 81 (newest first): high at 1, at 81, and at the first two of every three from 12 to 79. -/
theorem levelsFrom_cycle : ∀ o : Fin 82, (levelsFrom 0 82)[81 - o.val]?
    = some (if o.val = 1 ∨ o.val = 81 ∨ (12 ≤ o.val ∧ o.val ≤ 79 ∧ o.val % 3 ≠ 2) then 1#1 else 0#1) := by
  decide

/-- Settles O41: the history after the cycle is the program's levels on top of a low level for each waiting tick. -/
theorem cycleClockHasTwentyFivePulses : Obligations.CycleClockHasTwentyFivePulses := by
  intro s c rest h
  obtain ⟨t, hrun, -, -, -, -, hhistory, -⟩ := ticks_cycle h
  have hlength := length_levelsFrom_cycle
  have hnew : (levelsFrom 0 82 ++ List.replicate c.wait.length 0#1).length = 82 + c.wait.length := by simp [hlength]
  refine ⟨t, hrun, ?_, fun n hn => ?_, fun o ho => ?_, ?_⟩
  · rw [hhistory, ← hnew, List.drop_left]
  · rw [hhistory, List.append_assoc, List.getElem?_append_right (by omega), List.getElem?_append_left (by simp; omega), hlength,
      Nat.add_sub_cancel_left, List.getElem?_replicate, if_pos hn]
  · rw [hhistory, List.append_assoc, List.getElem?_append_left (by omega)]
    exact levelsFrom_cycle ⟨o, ho⟩
  · rw [hhistory, ← hnew, List.take_left, List.reverse_append, List.reverse_replicate, risingEdges_replicate_low_append]
    decide

end Sys2Proof.Machine
end

section
/-! PROOFS. The PUSH of a cycle (spec/41_frame_cycle.md sections 1 and 7): it stalls on a full queue, and else leads back to address 0. -/

namespace Sys2Proof.Machine

/-- A POP or a place left means room after the host phase. -/
theorem hostPhase_room {s : State} {i : TickInput} {rest : List TickInput} (hinv : s.Inv) (hi : s.inputs = i :: rest)
    (hroom : i.pop = true ∨ s.fifo.length ≠ s.cfg.fifoDepth) : (hostPhase s).fifo.length ≠ s.cfg.fifoDepth := by
  obtain ⟨hwf, -, hbound, -⟩ := hinv
  obtain ⟨-, -, hdepth⟩ := (ProtocolConfig.wf_iff _).1 hwf
  rw [hostPhase_fifo, State.popNow_of_inputs hi]
  cases hp : i.pop with
  | true => rw [if_pos rfl, List.length_tail]; omega
  | false => simpa [hp] using hroom

/-- A listed tick at address 82 of the reference program with room in the queue. -/
theorem step_reference_push {s : State} {i : TickInput} {rest : List TickInput} (hinv : s.Inv) (hp : s.cfg.uprog = referenceUprog)
    (he : s.en = true) (hu : s.upc = 82#7) (hi : s.inputs = i :: rest) (hr : i.rst = false)
    (hroom : i.pop = true ∨ s.fifo.length ≠ s.cfg.fifoDepth) :
    ∃ t, step s = .next t ∧ t.upc = 0#7 ∧ t.en = true ∧ t.cfg = s.cfg ∧ t.sr = s.sr ∧ t.inputs = rest
      ∧ t.fifo = (if i.pop then s.fifo.tail else s.fifo) ++ [s.sr] ∧ t.clkHistory = 0#1 :: s.clkHistory := by
  have hf : fetch s = .ok (.push 0#1) := fetch_eq_ok.2 ⟨3, by rw [hp, hu]; rfl, rfl⟩
  have hstep := step_push_room hi hr he hf (hostPhase_room hinv hi hroom)
  exact ⟨_, hstep, by simp [nextUpc_reference_last hp hu], by simp [he], by simp, by simp, by simp [hi],
    by simp [State.popNow_of_inputs hi], by simp⟩

/-- Settles O42: the cycle to address 82, the stalled ticks there, and the tick that pushes. -/
theorem cycleLastsWaitPlusEightyTwoPlusStall : Obligations.CycleLastsWaitPlusEightyTwoPlusStall := by
  intro s c stall last rest h hstall hlast
  obtain ⟨t, hrun, hupc, hen, hinputs, -⟩ := ticks_cycle h
  obtain ⟨hinv, hp, -⟩ := h
  refine ⟨t, hrun, hupc, fun hfull hroom => ?_⟩
  have htcfg := ticks_cfg hrun
  have hf : fetch t = .ok (.push 0#1) := fetch_eq_ok.2 ⟨3, by rw [htcfg, hp, hupc]; rfl, rfl⟩
  obtain ⟨m, hrun', hmupc, hmen, hmsr, hmfifo, hminputs, hmhistory⟩ :=
    ticks_push_stalled stall t hen hf (by rwa [htcfg]) hinputs hstall
  have hmcfg := (ticks_cfg hrun').trans htcfg
  obtain ⟨u, hstep, huupc, -, -, -, huinputs, hufifo, huhistory⟩ := step_reference_push (ticks_inv (ticks_inv hinv hrun) hrun')
    (by rw [hmcfg, hp]) hmen (hmupc.trans hupc) hminputs hlast (by rwa [hmfifo, hmcfg])
  refine ⟨u, ?_, huupc, huinputs, by rw [hufifo, hmfifo, hmsr], by rw [huhistory, hmhistory]; rfl⟩
  rw [show c.wait.length + 1 + 82 + stall.length = (c.wait.length + 82) + (stall.length + 1) by omega, ticks_add hrun, ticks_add hrun',
    ticks_succ_of_step hstep, ticks_zero]

end Sys2Proof.Machine
end

section
/-! PROOFS. A data line that is always low (spec/41_frame_cycle.md section 7). -/

namespace Sys2Proof.Machine

theorem foldl_shiftInsert_low (n : Nat) : (List.replicate n 0#1).foldl shiftInsert 0#32 = 0#32 := by
  induction n with
  | zero => rfl
  | succ n ih => rw [List.replicate_succ, List.foldl_cons, show shiftInsert 0#32 0#1 = 0#32 from rfl, ih]

theorem sampledFrom_low (l : List TickInput) (a : Nat) (hl : ∀ i ∈ l, i.data = 0#1) : ∀ b ∈ sampledFrom a l, b = 0#1 := by
  induction l generalizing a with
  | nil => simp [sampledFrom]
  | cons i l ih =>
    obtain ⟨hi, hrest⟩ := List.forall_mem_cons.1 hl
    rw [sampledFrom]
    split_ifs
    · exact List.forall_mem_cons.2 ⟨hi, ih (a + 1) hrest⟩
    · exact ih (a + 1) hrest

/-- A low line's cycle makes the zero word, whatever `sr` held (O46). -/
theorem foldl_sampledFrom_low {l : List TickInput} (hlength : l.length = 82) (hl : ∀ i ∈ l, i.data = 0#1) (x : Word) :
    (sampledFrom 0 l).foldl shiftInsert x = 0#32 := by
  have hbits := length_sampledFrom_cycle hlength
  rw [thirtyTwoShiftsForgetTheOldContents x 0#32 _ hbits.ge, List.eq_replicate_of_mem (sampledFrom_low l 0 hl), foldl_shiftInsert_low]

/-- One cycle of a low line: 83 ticks, one zero word. -/
theorem ticks_low_cycle {s : State} {low rest : List TickInput} (hinv : s.Inv) (hp : s.cfg.uprog = referenceUprog) (he : s.en = true)
    (hu : s.upc = 0#7) (hi : s.inputs = low ++ rest) (hlength : low.length = 83)
    (hlow : ∀ i ∈ low, i.rst = false ∧ i.pop = false ∧ i.data = 0#1) (hroom : s.fifo.length < s.cfg.fifoDepth) :
    ∃ t, ticks 83 s = .next t ∧ t.Inv ∧ t.cfg = s.cfg ∧ t.upc = 0#7 ∧ t.en = true ∧ t.inputs = rest
      ∧ t.fifo = s.fifo ++ [0#32] := by
  obtain ⟨ready, tail, rfl⟩ := List.exists_cons_of_length_eq_add_one hlength
  obtain ⟨frame, last, rfl⟩ : ∃ frame last, tail = frame ++ [last] := by
    have hne : tail ≠ [] := by rintro rfl; simp at hlength
    exact ⟨_, _, (List.dropLast_append_getLast hne).symm⟩
  have hframe : frame.length = 81 := by simpa using hlength
  rw [← List.cons_append] at hlow
  obtain ⟨hcycle, hlast⟩ := List.forall_mem_append.1 hlow
  obtain ⟨hready, hframelow⟩ := List.forall_mem_cons.1 hcycle
  obtain ⟨hlastrst, hlastpop, -⟩ := hlast last (List.mem_singleton_self last)
  obtain ⟨m, hrun, hmu, hme, hmi, hmsr, -, hmfifo⟩ := ticks_ready_frame (frame := frame) (rest := last :: rest) hp he hu
    (by simpa using hi) ⟨hready.1, hready.2.2⟩ hframe fun i h => (hframelow i h).1
  have hq : m.fifo = s.fifo := hmfifo fun i h => (hcycle i h).2.1
  have hzero : m.sr = 0#32 := by
    rw [hmsr]
    exact foldl_sampledFrom_low (by rw [List.length_cons, hframe]) (fun i h => (hcycle i h).2.2) s.sr
  have hmcfg := ticks_cfg hrun
  have hminv := ticks_inv hinv hrun
  obtain ⟨t, hstep, htu, hte, htcfg, -, hti, htfifo, -⟩ := step_reference_push hminv (by rw [hmcfg, hp]) hme hmu hmi hlastrst
    (.inr (by rw [hq, hmcfg]; exact hroom.ne))
  exact ⟨t, by rw [show 83 = 82 + 1 from rfl, ticks_add hrun, ticks_succ_of_step hstep, ticks_zero],
    everyStepKeepsTheInvariant m t hminv hstep, htcfg.trans hmcfg, htu, hte, hti, by simp [htfifo, hlastpop, hq, hzero]⟩

/-- Settles O47: by induction on the number of cycles. -/
theorem lineStuckLowPushesZeros : Obligations.LineStuckLowPushesZeros := by
  intro n
  induction n with
  | zero =>
    intro s low rest _ _ he hu hi hlength _ _
    obtain rfl : low = [] := List.length_eq_zero_iff.1 hlength
    exact ⟨s, rfl, hu, he, hi, by simp⟩
  | succ n ih =>
    intro s low rest hinv hp he hu hi hlength hlow hroom
    obtain ⟨t, hrun, htinv, htcfg, htu, hte, hti, htfifo⟩ := ticks_low_cycle (low := low.take 83) (rest := low.drop 83 ++ rest) hinv hp he
      hu (by rw [hi, ← List.append_assoc, List.take_append_drop]) (by rw [List.length_take]; omega)
      (fun i h => hlow i (List.mem_of_mem_take h)) (by omega)
    obtain ⟨u, hrun', huu, hue, hui, hufifo⟩ := ih t (low.drop 83) rest htinv (by rw [htcfg, hp]) hte htu hti
      (by rw [List.length_drop]; omega) (fun i h => hlow i (List.mem_of_mem_drop h)) (by rw [htfifo, htcfg]; simp; omega)
    refine ⟨u, ?_, huu, hue, hui, ?_⟩
    · rw [Nat.mul_succ, Nat.add_comm, ticks_add hrun, hrun']
    · rw [hufifo, htfifo, List.append_assoc, List.replicate_succ]; rfl

end Sys2Proof.Machine
end

section
/-! PROOFS. The assumption about the ADC (spec/41_frame_cycle.md section 4), as `adcContract` formalises it: what it says of one tick, and of a run
of ticks in two parts. -/

namespace Sys2Proof.Machine

/-- The ADC's ticks over two runs: the older levels with the first inputs, then the newer levels with the others. -/
theorem adcTicks_append {a b : Nat} {newer older : List Level} (past : List Level) {ia ib : List TickInput} {ra rb : List Bool}
    (hnewer : newer.length = b) (holder : older.length = a) (hia : ia.length = a) (hra : ra.length = a) :
    adcTicks (a + b) (newer ++ (older ++ past)) (ia ++ ib) (ra ++ rb)
      = adcTicks a (older ++ past) ia ra ++ adcTicks b (newer ++ (older ++ past)) ib rb := by
  subst hnewer holder
  have hboth : (newer ++ (older ++ past)).take (older.length + newer.length) = newer ++ older := by
    rw [← List.append_assoc, Nat.add_comm, ← List.length_append, List.take_left]
  rw [adcTicks, adcTicks, adcTicks, hboth, List.take_left, List.take_left, List.reverse_append, List.zip_append (hia.trans hra.symm),
    List.zip_append (by simp [hia, hra]), List.map_append]

/-- The clock levels of the ADC's ticks are those the engine drove, oldest first. -/
theorem map_clk_adcTicks {n : Nat} {levels : List Level} (past : List Level) {inputs : List TickInput} {ready : List Bool}
    (hlevels : levels.length = n) (hinputs : inputs.length = n) (hready : ready.length = n) :
    (adcTicks n (levels ++ past) inputs ready).map AdcTick.clk = levels.reverse := by
  rw [← hlevels, adcTicks, List.take_left, List.map_map]
  exact List.map_fst_zip (by simp [hlevels, hinputs, hready])

/-- The data levels of the ADC's ticks are those of the inputs. -/
theorem map_data_adcTicks {n : Nat} {levels : List Level} (past : List Level) {inputs : List TickInput} {ready : List Bool}
    (hlevels : levels.length = n) (hinputs : inputs.length = n) (hready : ready.length = n) :
    (adcTicks n (levels ++ past) inputs ready).map AdcTick.data = inputs.map TickInput.data := by
  rw [← hlevels, adcTicks, List.take_left, List.map_map]
  change (levels.reverse.zip (inputs.zip ready)).map (TickInput.data ∘ Prod.fst ∘ Prod.snd) = _
  rw [← List.map_map, ← List.map_map, List.map_snd_zip (by simp [hlevels, hinputs, hready]), List.map_fst_zip (by omega)]

/-- Items 2 and 3: in a tick that is no edge, `e` rising edges past, `e` from 1 to 24, the line carries bit `24 - e`. -/
theorem data_of_adcContract {v : BitVec 24} {before : Level} {l : List AdcTick} {n e : Nat} {x : AdcTick}
    (h : adcContract v before 0 l = true) (hx : l[n]? = some x) (he : risingEdges before ((l.map AdcTick.clk).take n) = e)
    (hsteady : ((l.map AdcTick.clk).take n).getLastD before = x.clk) (h1 : 1 ≤ e) (h24 : e ≤ 24) :
    x.data = v.extractLsb' (24 - e) 1 := by
  obtain ⟨hn, rfl⟩ := List.getElem?_eq_some_iff.1 hx
  rw [← List.map_take] at he hsteady
  rw [← List.take_append_drop n l, List.drop_eq_getElem_cons hn] at h
  obtain ⟨-, hrest⟩ := adcContract_append _ _ _ _ (by omega) h
  rw [he, hsteady, Nat.zero_add, adcContract_of_not_rising (fun hr => absurd (hr.1.symm.trans hr.2) (by decide)), Bool.and_eq_true] at hrest
  obtain ⟨hagrees, -⟩ := hrest
  rw [AdcTick.agrees, if_neg (by omega), if_pos h24] at hagrees
  exact eq_of_beq hagrees

/-- Item 4: in a low tick after the 25th edge the line is high, if no conversion is ready or it is the first low tick. -/
theorem data_high_of_agrees {v : BitVec 24} {before : Level} {x : AdcTick} (h : x.agrees v before 25 = true) (hlow : x.clk = 0#1)
    (hbusy : before = 1#1 ∨ x.ready = false) : x.data = 1#1 := by
  simp only [AdcTick.agrees, AdcTick.idles, hlow] at h
  obtain rfl | hready := hbusy
  · cases hready : x.ready with
    | true => simp [hready] at h
    | false => simpa [hready] using h
  · simpa [hready] using h

theorem adcContract_low_cons {v : BitVec 24} {before : Level} {edges : Nat} {x : AdcTick} {l : List AdcTick} (hlow : x.clk = 0#1)
    (h : adcContract v before edges (x :: l) = true) : x.agrees v before edges = true ∧ adcContract v 0#1 edges l = true := by
  rw [adcContract_of_not_rising fun hr => absurd (hlow.symm.trans hr.2) (by decide), Bool.and_eq_true, hlow] at h
  exact h

end Sys2Proof.Machine
end

section
/-! PROOFS. The result guarantee (spec/41_frame_cycle.md section 5): with a line that keeps the contract for `v`, the word of a cycle is
`sext_24(v)`. -/

namespace Sys2Proof.Machine

/-- At read `i` the clock has risen once for the reads of the most-significant bit (`i` to 8) and then once a read, and it is steady. -/
theorem clock_at_read : ∀ (before : Level) (i : Fin 32),
    risingEdges before ((levelsFrom 0 82).reverse.take (readTick i.val)) = (if i.val ≤ 8 then 1 else i.val - 7)
      ∧ (levelsFrom 0 82).reverse[readTick i.val]? = some (((levelsFrom 0 82).reverse.take (readTick i.val)).getLastD before) := by
  decide

theorem readTick_lt {i : Nat} (hi : i < 32) : readTick i < 82 := by
  rw [readTick]; split_ifs <;> omega

/-- Waiting ticks have no edge, whatever the level before them. -/
theorem risingEdges_replicate_low (before : Level) (n : Nat) : risingEdges before (List.replicate n 0#1) = 0 := by
  induction n generalizing before with
  | zero => rfl
  | succ n ih => rw [List.replicate_succ, risingEdges, ih]; simp

theorem risingEdges_cycle : ∀ before : Level, risingEdges before (levelsFrom 0 82).reverse = 25 := by decide

theorem getLastD_levelsFrom_cycle : ∀ before : Level, (levelsFrom 0 82).reverse.getLastD before = 1#1 := by decide

/-- Read `i` of a frame that keeps the contract is bit `31 - i` of `sext_24(v)`. -/
theorem read_of_adcContract {v : BitVec 24} {before : Level} {l : List AdcTick} (hclk : l.map AdcTick.clk = (levelsFrom 0 82).reverse)
    (h : adcContract v before 0 l = true) {i : Nat} (hi : i < 32) {x : AdcTick} (hx : l[readTick i]? = some x) :
    x.data.getLsbD 0 = (sext24 v).getLsbD (31 - i) := by
  obtain ⟨hedges, hsteady⟩ := clock_at_read before ⟨i, hi⟩
  rw [← hclk] at hedges hsteady
  rw [List.getElem?_map, hx, Option.map_some, Option.some.injEq] at hsteady
  have hdata := data_of_adcContract h hx hedges hsteady.symm (by dsimp only; split_ifs <;> omega) (by dsimp only; split_ifs <;> omega)
  rw [hdata, BitVec.getLsbD_extractLsb', getLsbD_sext24 v _ (by omega)]
  dsimp only
  split_ifs with h8 h24 h24
  · obtain rfl : i = 8 := by omega
    rfl
  · rfl
  · rw [show 24 - (i - 7) + 0 = 31 - i by omega]; rfl
  · omega

/-- The word a frame that keeps the contract makes, whatever `sr` held. -/
theorem foldl_sampledFrom_of_adcContract {v : BitVec 24} {before : Level} {l : List AdcTick} {inputs : List TickInput} (x : Word)
    (hlength : inputs.length = 82) (hclk : l.map AdcTick.clk = (levelsFrom 0 82).reverse)
    (hdata : l.map AdcTick.data = inputs.map TickInput.data) (h : adcContract v before 0 l = true) :
    (sampledFrom 0 inputs).foldl shiftInsert x = sext24 v := by
  have hbits := length_sampledFrom_cycle hlength
  have hl : l.length = 82 := by rw [← hlength, ← List.length_map TickInput.data, ← hdata, List.length_map]
  refine BitVec.eq_of_getLsbD_eq fun j hj => ?_
  have hi : 31 - j < 32 := by omega
  have hlt : readTick (31 - j) < l.length := hl ▸ readTick_lt hi
  rw [getLsbD_foldl_shiftInsert _ x j hj, if_pos (by omega), hbits, getElem?_sampledFrom_cycle hlength hi, ← hdata, List.getElem?_map,
    List.getElem?_eq_getElem hlt, Option.map_some, Option.getD_some,
    read_of_adcContract hclk h hi (List.getElem?_eq_getElem hlt), Nat.sub_sub_self (by omega)]

/-- A whole cycle that keeps the contract, its waiting ticks first: the word it makes, and the contract for the ticks after it. -/
theorem sr_of_adcContract_cycle {v : BitVec 24} {s t : State} {c : CycleInputs} {ready : List Bool} {after : List AdcTick}
    (hfits : c.Fits) (hsr : t.sr = (sampledFrom 0 (c.ready :: c.frame)).foldl shiftInsert s.sr)
    (hhistory : t.clkHistory = levelsFrom 0 82 ++ List.replicate c.wait.length 0#1 ++ s.clkHistory)
    (hready : ready.length = c.wait.length + 82)
    (h : adcContract v s.clk 0 (adcTicks (c.wait.length + 82) t.clkHistory c.all ready ++ after) = true) :
    t.sr = sext24 v ∧ adcContract v 1#1 25 after = true := by
  obtain ⟨-, -, -, hframe, -⟩ := hfits
  have hlength : (c.ready :: c.frame).length = 82 := by rw [List.length_cons, hframe]
  have hlevels := length_levelsFrom_cycle
  have hwait : (ready.take c.wait.length).length = c.wait.length := by rw [List.length_take]; omega
  have hrest : (ready.drop c.wait.length).length = 82 := by rw [List.length_drop]; omega
  rw [hhistory, List.append_assoc, CycleInputs.all, ← List.take_append_drop c.wait.length ready,
    adcTicks_append s.clkHistory hlevels List.length_replicate rfl hwait, List.append_assoc] at h
  have hclkwait := map_clk_adcTicks s.clkHistory (levels := List.replicate c.wait.length 0#1) List.length_replicate rfl hwait
  have hclkframe := map_clk_adcTicks (List.replicate c.wait.length 0#1 ++ s.clkHistory) hlevels hlength hrest
  have hdataframe := map_data_adcTicks (List.replicate c.wait.length 0#1 ++ s.clkHistory) hlevels hlength hrest
  obtain ⟨-, hcycle⟩ := adcContract_append _ _ _ _ (by rw [hclkwait, List.reverse_replicate, risingEdges_replicate_low]; omega) h
  rw [hclkwait, List.reverse_replicate, risingEdges_replicate_low] at hcycle
  obtain ⟨hword, hafter⟩ := adcContract_append _ _ _ _ (by rw [hclkframe, risingEdges_cycle]) hcycle
  refine ⟨?_, by rwa [hclkframe, risingEdges_cycle, getLastD_levelsFrom_cycle] at hafter⟩
  rw [hsr]
  exact foldl_sampledFrom_of_adcContract s.sr hlength hclkframe hdataframe hword

/-- Settles O43: the word from the contract, its reading from O45, and the tick that pushes it. -/
theorem cyclePushesTheSignExtendedConversion : Obligations.CyclePushesTheSignExtendedConversion := by
  intro v s c last rest ready h hlast hready
  obtain ⟨t, hrun, hupc, hen, hinputs, hsr, hhistory, -⟩ := ticks_cycle h
  obtain ⟨hinv, hp, -, -, hfits, -⟩ := h
  refine ⟨t, hrun, fun hcontract => ?_⟩
  rw [← List.append_nil (adcTicks _ _ _ _)] at hcontract
  obtain ⟨hword, -⟩ := sr_of_adcContract_cycle hfits hsr hhistory hready hcontract
  obtain ⟨-, -, -, -, hsigned⟩ := signExtensionKeepsTheValue v
  refine ⟨hword, by rw [hword, hsigned], by rw [hword, hsigned]; exact BitVec.le_toInt v, ?_, fun hroom => ?_⟩
  · rw [hword, hsigned]
    exact Int.le_sub_one_of_lt BitVec.toInt_lt
  · have htcfg := ticks_cfg hrun
    obtain ⟨u, hstep, -, -, -, -, -, hufifo, -⟩ := step_reference_push (ticks_inv hinv hrun) (by rw [htcfg, hp]) hen hupc hinputs hlast
      (by rwa [htcfg])
    exact ⟨u, by rw [ticks_add (b := 1) hrun, ticks_succ_of_step hstep, ticks_zero], by rw [hufifo, hword, List.getLast?_concat]⟩

end Sys2Proof.Machine
end

section
/-! PROOFS. Between two frames (spec/41_frame_cycle.md section 4, item 4): while the ADC is busy the engine waits at address 0. -/

namespace Sys2Proof.Machine

/-- One listed tick of the ADC in front of the others. -/
theorem adcTicks_cons {k : Nat} {levels past : List Level} {b : Level} {i : TickInput} {r : Bool} {inputs : List TickInput}
    {ready : List Bool} (hlevels : levels.length = k) :
    adcTicks (k + 1) (levels ++ b :: past) (i :: inputs) (r :: ready)
      = { clk := b, data := i.data, ready := r } :: adcTicks k (levels ++ b :: past) inputs ready := by
  rw [Nat.add_comm]
  exact adcTicks_append (older := [b]) (ia := [i]) (ra := [r]) past hlevels rfl rfl rfl

/-- At address 0 of the reference program, after a frame that kept the contract and while no conversion is ready, the contract keeps the line high:
the tick's level is low whatever the line answers, so the line idles, and the WAIT stays. -/
theorem data_high_while_busy {v : BitVec 24} {rest : List TickInput} (busy : List TickInput) (s u : State) (ready : List Bool)
    (hp : s.cfg.uprog = referenceUprog) (he : s.en = true) (hu : s.upc = 0#7) (hi : s.inputs = busy ++ rest)
    (hr : ∀ i ∈ busy, i.rst = false) (hlength : ready.length = busy.length) (hready : ∀ r ∈ ready, r = false)
    (hrun : ticks busy.length s = .next u) (h : adcContract v 0#1 25 (adcTicks busy.length u.clkHistory busy ready) = true) :
    ∀ i ∈ busy, i.data = 1#1 := by
  induction busy generalizing s ready with
  | nil => simp
  | cons i l ih =>
    obtain ⟨hri, hrl⟩ := List.forall_mem_cons.1 hr
    obtain ⟨r, ready, rfl⟩ := List.exists_cons_of_length_eq_add_one hlength
    obtain ⟨hready0, hreadyl⟩ := List.forall_mem_cons.1 hready
    rw [List.length_cons] at hrun h hlength
    obtain ⟨t, hstep, hrun'⟩ := ticks_succ_eq_next.1 hrun
    obtain ⟨w, hw, hclk⟩ := step_clk_of_running hstep ((State.rstNow_of_inputs hi).trans hri) he
    have hlow : t.clk = 0#1 := by
      rw [hp, hu] at hw
      cases hw
      exact hclk
    obtain ⟨hhistory, -⟩ := everyTickRecordsItsClockLevel s t hstep
    obtain ⟨levels, hlevels, hulevels⟩ := ticks_clkHistory hrun'
    rw [hulevels, hhistory, hlow, adcTicks_cons hlevels] at h
    obtain ⟨hagrees, hrest⟩ := adcContract_low_cons rfl h
    have hdata : i.data = 1#1 := data_high_of_agrees hagrees rfl (.inr hready0)
    refine List.forall_mem_cons.2 ⟨hdata, ?_⟩
    have hf : fetch s = .ok (.wait 0#1) := fetch_eq_ok.2 ⟨0, by rw [hp, hu]; rfl, rfl⟩
    rw [step_wait_stall hi hri he hf hdata] at hstep
    cases hstep
    rw [← hlow, ← hhistory, ← hulevels] at hrest
    exact ih _ ready (by simp [hp]) (by simp [he]) (by simp [hu]) (by simp [hi]) hrl (by simpa using hlength) hreadyl hrun' hrest

/-- The ADC's ticks over a cycle, the tick of its PUSH, and the ticks after it. -/
theorem adcTicks_cycle_push {s t : State} {c : CycleInputs} {last : TickInput} {busy : List TickInput} {ready : List Bool}
    {levels : List Level} (hfits : c.Fits)
    (hhistory : t.clkHistory = levelsFrom 0 82 ++ List.replicate c.wait.length 0#1 ++ s.clkHistory) (hlevels : levels.length = busy.length)
    (hlength : ready.length = c.wait.length + 83 + busy.length) :
    adcTicks (c.wait.length + 83 + busy.length) (levels ++ 0#1 :: t.clkHistory) (c.all ++ last :: busy) ready
      = adcTicks (c.wait.length + 82) t.clkHistory c.all (ready.take (c.wait.length + 82))
        ++ { clk := 0#1, data := last.data, ready := ready[c.wait.length + 82] }
          :: adcTicks busy.length (levels ++ 0#1 :: t.clkHistory) busy (ready.drop (c.wait.length + 83)) := by
  obtain ⟨-, -, -, hframe, -⟩ := hfits
  have hcycle : (levelsFrom 0 82 ++ List.replicate c.wait.length 0#1).length = c.wait.length + 82 := by
    rw [List.length_append, length_levelsFrom_cycle, List.length_replicate, Nat.add_comm]
  have hall : c.all.length = c.wait.length + 82 := by rw [CycleInputs.all, List.length_append, List.length_cons, hframe]
  have hnewer : (levels ++ [0#1]).length = busy.length + 1 := by rw [List.length_append, hlevels, List.length_singleton]
  have htake : (ready.take (c.wait.length + 82)).length = c.wait.length + 82 := by rw [List.length_take]; omega
  have hsplit := adcTicks_append s.clkHistory (ib := last :: busy) (rb := ready.drop (c.wait.length + 82)) hnewer hcycle hall htake
  rw [List.take_append_drop, ← hhistory, ← List.append_cons, List.drop_eq_getElem_cons (by omega), adcTicks_cons hlevels] at hsplit
  rw [← hsplit]
  congr 1
  omega

/-- Settles O44: the cycle's part of the contract gives the word, the PUSH's tick is the first low one after the 25th pulse, and the rest is
the wait at address 0. -/
theorem nextCycleWaitsForTheNextConversion : Obligations.NextCycleWaitsForTheNextConversion := by
  intro v s c last busy rest ready h hlast hbusy hlength hready
  obtain ⟨t, hrun, hupc, hen, hinputs, hsr, hhistory, -⟩ := ticks_cycle h
  obtain ⟨hinv, hp, -, -, hfits, -⟩ := h
  refine ⟨t, hrun, fun hroom => ?_⟩
  have htcfg := ticks_cfg hrun
  have htinv := ticks_inv hinv hrun
  obtain ⟨p, hstep, hpupc, hpen, hpcfg, hpsr, hpinputs, -, hphistory⟩ :=
    step_reference_push htinv (by rw [htcfg, hp]) hen hupc hinputs hlast (by rwa [htcfg])
  have hpprog : p.cfg.uprog = referenceUprog := by rw [hpcfg, htcfg, hp]
  obtain ⟨u, hwaiting, -⟩ := theEngineNeverStops busy.length p (everyStepKeepsTheInvariant t p htinv hstep)
  refine ⟨u, ?_, fun hcontract => ?_⟩
  · rw [show c.wait.length + 83 + busy.length = (c.wait.length + 82) + (busy.length + 1) by omega, ticks_add hrun,
      ticks_succ_of_step hstep, hwaiting]
  obtain ⟨levels, hlevels, hulevels⟩ := ticks_clkHistory hwaiting
  rw [hulevels, hphistory, adcTicks_cycle_push hfits hhistory hlevels hlength, ← hphistory, ← hulevels] at hcontract
  obtain ⟨hword, hpush⟩ := sr_of_adcContract_cycle hfits hsr hhistory (by rw [List.length_take]; omega) hcontract
  obtain ⟨hagrees, hwait⟩ := adcContract_low_cons rfl hpush
  have hhigh := data_high_while_busy busy p u _ hpprog hpen hpupc hpinputs hbusy (by rw [List.length_drop]; omega) hready hwaiting hwait
  obtain ⟨u', hwaiting', huupc, -, -, husr, huinputs, huhistory, -⟩ := ticks_waiting busy p hpprog hpen hpupc hpinputs
    fun i hi => ⟨hbusy i hi, hhigh i hi⟩
  rw [hwaiting] at hwaiting'
  cases hwaiting'
  refine ⟨data_high_of_agrees hagrees rfl (.inl rfl), hhigh, huupc, by rw [husr, hpsr, hword], huinputs, ?_⟩
  rw [huhistory, hphistory, List.append_cons, List.replicate_succ']

end Sys2Proof.Machine
end
